-- ==== Sys2Proof/Word.lean ====
section
/-! DEFINITION. The word types of the core. The constants its source fixes (00_scope.md rule R4) are the widths of these types
and the numbers the spec itself writes out: `MODULUS` and `REG_BASE` 32768, `LITERAL_MAX` 32767, `REG_MAX` 32775,
`INVALID_MIN` 32776, `NOPCODES` 21. Every value of this machine is unsigned (00_scope.md section 5). -/

namespace Sys2Proof

/-- A memory cell, a register, a stack entry, the program counter: `WORD_BITS` = 16 bits (R4, R10, R14, R18, R21). -/
abbrev Word := BitVec 16

/-- A literal operand's value: `VALUE_BITS` = 15 bits (R4, R54). -/
abbrev Literal := BitVec 15

/-- One character on a channel, an 8-bit code point (R151, R155), and one byte of an image file (R38). -/
abbrev Byte := BitVec 8

/-- The index of one of the `NREGS` = 8 general registers (R4, R10). -/
abbrev RegIndex := Fin 8

end Sys2Proof
end

