-- ==== Sys2Proof/Machine/Flags.lean ====
section
/-! DEFINITION. The core has no flags (10_state.md rule R17): what another machine would leave in a flag is a register
value here. This file holds every computed result: the comparisons (42_compare.md) and the 15-bit ALU (44_alu.md),
each on the full unsigned 16-bit operand values (R116). -/

namespace Sys2Proof.Machine

/-- Every ALU result is reduced to 15 bits before it is written (R116, R117). -/
def reduce15 (n : Nat) : Word := BitVec.ofNat 16 (n % 32768)

/-- R110: the exact sum, reduced. -/
def addResult (a b : Word) : Word := reduce15 (a.toNat + b.toNat)

/-- R111: the exact product, reduced. -/
def multResult (a b : Word) : Word := reduce15 (a.toNat * b.toNat)

/-- R112: the remainder of the full values, then reduced. The divisor is not 0 where this is used. -/
def modResult (a b : Word) : Word := reduce15 (a.toNat % b.toNat)

/-- R113. -/
def andResult (a b : Word) : Word := (a &&& b) &&& 0x7FFF

/-- R114. -/
def orResult (a b : Word) : Word := (a ||| b) &&& 0x7FFF

/-- R115. -/
def notResult (a : Word) : Word := ~~~a &&& 0x7FFF

/-- R95: the two words whole, all 16 bits. -/
def eqResult (a b : Word) : Word := if a = b then 1 else 0

/-- R96: unsigned and strict, the two words whole. -/
def gtResult (a b : Word) : Word := if b.toNat < a.toNat then 1 else 0

/-- R101: `jt` is taken on any word but 0. -/
def nonZero (c : Word) : Bool := c != 0

/-- R102: `jf` is taken on 0 alone. -/
def isZero (c : Word) : Bool := c == 0

end Sys2Proof.Machine
end

