-- ==== Sys2Proof/Syntax.lean ====
section
/-! DEFINITION. The instructions: one constructor of Instr per row of spec/opcode_table.json (30_encoding.md rule R62),
and the three classes an operand word falls into (R54). -/

namespace Sys2Proof

/-- An operand word by its class (R54). An invalid word is kept whole: the fault it raises records it (R163). -/
inductive Operand where
  /-- A word in 0..32767: the value itself. -/
  | lit (v : Literal)
  /-- A word in 32768..32775: register `r`. -/
  | reg (r : RegIndex)
  /-- A word in 32776..65535. -/
  | invalid (w : Word)
deriving DecidableEq, Repr

/-- The instruction set (R62). `d` is a destination word, `a` and `b` are value words, in memory order.
Any operand position may hold a word of any class: an ill-classed one faults when executed (R55, R56), it is not undecodable (R63). -/
inductive Instr where
  | halt
  | set (d a : Operand)
  | push (a : Operand)
  | pop (d : Operand)
  | eq (d a b : Operand)
  | gt (d a b : Operand)
  | jmp (a : Operand)
  | jt (a b : Operand)
  | jf (a b : Operand)
  | add (d a b : Operand)
  | mult (d a b : Operand)
  | mod (d a b : Operand)
  | and (d a b : Operand)
  | or (d a b : Operand)
  | not (d a : Operand)
  | rmem (d a : Operand)
  | wmem (a b : Operand)
  | call (a : Operand)
  | ret
  | out (a : Operand)
  | inp (d : Operand)
  /-- Every opcode word outside 0..20 (R63); the word is kept so that no bit of an encoding is dropped. -/
  | noop (op : Word)
deriving DecidableEq, Repr

/-- The role of an operand position in the opcode map (R62): a destination word (R56) or a value word (R55). -/
inductive Role where
  | dest
  | value
deriving DecidableEq, Repr

/-- The four instruction formats (R50). -/
inductive Format where
  | w1 | w2 | w3 | w4
deriving DecidableEq, Repr

/-- The number of words of a format (R50). -/
def Format.words : Format → Nat
  | .w1 => 1
  | .w2 => 2
  | .w3 => 3
  | .w4 => 4

/-- One row of the opcode map (R62): the opcode words `lo..hi`, the mnemonic, the format and the roles of `w1`, `w2`, `w3`. -/
structure OpcodeRow where
  lo : Nat
  hi : Nat
  mnemonic : String
  format : Format
  roles : List Role
deriving DecidableEq, Repr

end Sys2Proof
end

