-- ==== Sys2Proof/WellFormed.lean ====
section
/-! DEFINITION. Which terms of Instr stand for words of memory: the decoder answers only well-formed terms,
and the encoder is meant for them. There are two checks, one per field that is wider in the type than in the encoding. -/

namespace Sys2Proof

/-- `invalid w` stands for a word of the invalid class, 32776 or more (R54). -/
def Operand.wf : Operand → Bool
  | .lit _ => true
  | .reg _ => true
  | .invalid w => decide (32776 ≤ w.toNat)

/-- Every operand is a word of its class, and a no-op's opcode word is outside 0..20 (R63). -/
def Instr.wf : Instr → Bool
  | .halt => true
  | .set d a => d.wf && a.wf
  | .push a => a.wf
  | .pop d => d.wf
  | .eq d a b => d.wf && a.wf && b.wf
  | .gt d a b => d.wf && a.wf && b.wf
  | .jmp a => a.wf
  | .jt a b => a.wf && b.wf
  | .jf a b => a.wf && b.wf
  | .add d a b => d.wf && a.wf && b.wf
  | .mult d a b => d.wf && a.wf && b.wf
  | .mod d a b => d.wf && a.wf && b.wf
  | .and d a b => d.wf && a.wf && b.wf
  | .or d a b => d.wf && a.wf && b.wf
  | .not d a => d.wf && a.wf
  | .rmem d a => d.wf && a.wf
  | .wmem a b => a.wf && b.wf
  | .call a => a.wf
  | .ret => true
  | .out a => a.wf
  | .inp d => d.wf
  | .noop op => decide (21 ≤ op.toNat)

end Sys2Proof
end

