-- ==== Sys2Proof/Decode.lean ====
section
/-! DEFINITION. The opcode map (30_encoding.md rule R62), the decoder, total on any words, and after it the encoder.
The unit is the 16-bit word: the core never sees bytes (20_memory.md rule R39). -/

namespace Sys2Proof

/-! ### Decoding -/

/-- The class of an operand word (R54). -/
def decodeOperand (w : Word) : Operand :=
  if w.toNat ≤ 32767 then .lit (w.setWidth 15)
  else if h : w.toNat ≤ 32775 then .reg ⟨w.toNat - 32768, by omega⟩
  else .invalid w

/-- The instruction of an opcode word and the three candidate operand words (R60, R62). The opcode word is compared
whole and never resolved (R64); candidate words beyond the format are not looked at (R52); every opcode word
outside 0..20 is the no-op (R63). -/
def decodeWords (op w1 w2 w3 : Word) : Instr :=
  match op.toNat with
  | 0 => .halt
  | 1 => .set (decodeOperand w1) (decodeOperand w2)
  | 2 => .push (decodeOperand w1)
  | 3 => .pop (decodeOperand w1)
  | 4 => .eq (decodeOperand w1) (decodeOperand w2) (decodeOperand w3)
  | 5 => .gt (decodeOperand w1) (decodeOperand w2) (decodeOperand w3)
  | 6 => .jmp (decodeOperand w1)
  | 7 => .jt (decodeOperand w1) (decodeOperand w2)
  | 8 => .jf (decodeOperand w1) (decodeOperand w2)
  | 9 => .add (decodeOperand w1) (decodeOperand w2) (decodeOperand w3)
  | 10 => .mult (decodeOperand w1) (decodeOperand w2) (decodeOperand w3)
  | 11 => .mod (decodeOperand w1) (decodeOperand w2) (decodeOperand w3)
  | 12 => .and (decodeOperand w1) (decodeOperand w2) (decodeOperand w3)
  | 13 => .or (decodeOperand w1) (decodeOperand w2) (decodeOperand w3)
  | 14 => .not (decodeOperand w1) (decodeOperand w2)
  | 15 => .rmem (decodeOperand w1) (decodeOperand w2)
  | 16 => .wmem (decodeOperand w1) (decodeOperand w2)
  | 17 => .call (decodeOperand w1)
  | 18 => .ret
  | 19 => .out (decodeOperand w1)
  | 20 => .inp (decodeOperand w1)
  | _ => .noop op

/-- The length of an instruction, from its opcode word alone (R65). -/
def instrLength (op : Word) : Nat :=
  match op.toNat with
  | 2 => 2
  | 3 => 2
  | 6 => 2
  | 17 => 2
  | 19 => 2
  | 20 => 2
  | 1 => 3
  | 7 => 3
  | 8 => 3
  | 14 => 3
  | 15 => 3
  | 16 => 3
  | 4 => 4
  | 5 => 4
  | 9 => 4
  | 10 => 4
  | 11 => 4
  | 12 => 4
  | 13 => 4
  | _ => 1

/-- Why a list of words is no instruction. No opcode word is rejected (R63): only a list that ends too early is. -/
inductive DecodeError where
  /-- The list is empty. -/
  | noOpcodeWord
  /-- The instruction has `need` words and the list only `have_`. -/
  | truncated (need have_ : Nat)
deriving DecidableEq, Repr

/-- The instruction at the head of a list of words, and the words after it. -/
def decode : List Word → Except DecodeError (Instr × List Word)
  | [] => .error .noOpcodeWord
  | op :: rest =>
    if rest.length + 1 < instrLength op then .error (.truncated (instrLength op) (rest.length + 1))
    else .ok (decodeWords op (rest.getD 0 0) (rest.getD 1 0) (rest.getD 2 0), rest.drop (instrLength op - 1))

/-- The word `k` (0 to 3) of an instruction whose bits are numbered as spec/opcode_table.json numbers them:
the opcode word is bits 15..0, the next word bits 31..16; bits at or above `nbits` are 0. -/
def tableWord (nbits w k : Nat) : Word := BitVec.ofNat 16 (w % 2 ^ nbits / 65536 ^ k)

/-- The four words a row's bits stand for, operand words it gives no bits being 0. -/
def tableWords (nbits w : Nat) : List Word :=
  [tableWord nbits w 0, tableWord nbits w 1, tableWord nbits w 2, tableWord nbits w 3]

/-- The instruction the decoder reads from a row's bits. -/
def decodeTableWord (nbits w : Nat) : Option Instr := (decode (tableWords nbits w)).toOption.map Prod.fst

/-! ### Encoding -/

/-- The word of an operand (R54). -/
def encodeOperand : Operand → Word
  | .lit v => v.setWidth 16
  | .reg r => BitVec.ofNat 16 (32768 + r.val)
  | .invalid w => w

/-- The opcode word (R62). -/
def Instr.opcode : Instr → Word
  | .halt => 0
  | .set _ _ => 1
  | .push _ => 2
  | .pop _ => 3
  | .eq _ _ _ => 4
  | .gt _ _ _ => 5
  | .jmp _ => 6
  | .jt _ _ => 7
  | .jf _ _ => 8
  | .add _ _ _ => 9
  | .mult _ _ _ => 10
  | .mod _ _ _ => 11
  | .and _ _ _ => 12
  | .or _ _ _ => 13
  | .not _ _ => 14
  | .rmem _ _ => 15
  | .wmem _ _ => 16
  | .call _ => 17
  | .ret => 18
  | .out _ => 19
  | .inp _ => 20
  | .noop op => op

/-- The operands in memory order `w1`, `w2`, `w3` (R62). -/
def Instr.operands : Instr → List Operand
  | .halt => []
  | .set d a => [d, a]
  | .push a => [a]
  | .pop d => [d]
  | .eq d a b => [d, a, b]
  | .gt d a b => [d, a, b]
  | .jmp a => [a]
  | .jt a b => [a, b]
  | .jf a b => [a, b]
  | .add d a b => [d, a, b]
  | .mult d a b => [d, a, b]
  | .mod d a b => [d, a, b]
  | .and d a b => [d, a, b]
  | .or d a b => [d, a, b]
  | .not d a => [d, a]
  | .rmem d a => [d, a]
  | .wmem a b => [a, b]
  | .call a => [a]
  | .ret => []
  | .out a => [a]
  | .inp d => [d]
  | .noop _ => []

/-- The words of an instruction (R50): its opcode word and then one whole word per operand. -/
def encode (i : Instr) : List Word := i.opcode :: i.operands.map encodeOperand

/-! ### The opcode map as data -/

/-- The 22 rows of the opcode map (R62), in its order. -/
def opcodeTable : List OpcodeRow :=
  [⟨0, 0, "halt", .w1, []⟩,
   ⟨1, 1, "set", .w3, [.dest, .value]⟩,
   ⟨2, 2, "push", .w2, [.value]⟩,
   ⟨3, 3, "pop", .w2, [.dest]⟩,
   ⟨4, 4, "eq", .w4, [.dest, .value, .value]⟩,
   ⟨5, 5, "gt", .w4, [.dest, .value, .value]⟩,
   ⟨6, 6, "jmp", .w2, [.value]⟩,
   ⟨7, 7, "jt", .w3, [.value, .value]⟩,
   ⟨8, 8, "jf", .w3, [.value, .value]⟩,
   ⟨9, 9, "add", .w4, [.dest, .value, .value]⟩,
   ⟨10, 10, "mult", .w4, [.dest, .value, .value]⟩] ++
  [⟨11, 11, "mod", .w4, [.dest, .value, .value]⟩,
   ⟨12, 12, "and", .w4, [.dest, .value, .value]⟩,
   ⟨13, 13, "or", .w4, [.dest, .value, .value]⟩,
   ⟨14, 14, "not", .w3, [.dest, .value]⟩,
   ⟨15, 15, "rmem", .w3, [.dest, .value]⟩,
   ⟨16, 16, "wmem", .w3, [.value, .value]⟩,
   ⟨17, 17, "call", .w2, [.value]⟩,
   ⟨18, 18, "ret", .w1, []⟩,
   ⟨19, 19, "out", .w2, [.value]⟩,
   ⟨20, 20, "in", .w2, [.dest]⟩,
   ⟨21, 65535, "noop", .w1, []⟩]

/-- A row covers the opcode words of its range. -/
def OpcodeRow.covers (row : OpcodeRow) (op : Word) : Bool := decide (row.lo ≤ op.toNat ∧ op.toNat ≤ row.hi)

/-- The mnemonic, as the opcode map spells it (R62, R67). -/
def Instr.mnemonic : Instr → String
  | .halt => "halt"
  | .set _ _ => "set"
  | .push _ => "push"
  | .pop _ => "pop"
  | .eq _ _ _ => "eq"
  | .gt _ _ _ => "gt"
  | .jmp _ => "jmp"
  | .jt _ _ => "jt"
  | .jf _ _ => "jf"
  | .add _ _ _ => "add"
  | .mult _ _ _ => "mult"
  | .mod _ _ _ => "mod"
  | .and _ _ _ => "and"
  | .or _ _ _ => "or"
  | .not _ _ => "not"
  | .rmem _ _ => "rmem"
  | .wmem _ _ => "wmem"
  | .call _ => "call"
  | .ret => "ret"
  | .out _ => "out"
  | .inp _ => "in"
  | .noop _ => "noop"

end Sys2Proof
end

