-- ==== Sys2Proof/Config.lean ====
section
/-! DEFINITION. What an implementation fixes for a run: the OPEN parameters of 00_scope.md rule R5 that the core
itself reads. The image and the Input Source, the other two open parameters, are arguments of reset
(Machine/Load.lean) and fields of State. No behaviour of the spec is left without a value, so there is no free value here. -/

namespace Sys2Proof

/-- The parameters of one machine, fixed for a run (R5, R31, R19). -/
structure Params where
  /-- `MEMSIZE`, the number of memory cells: 0 to 32768 (R31). -/
  memSize : Fin 32769
  /-- `STACK_DEPTH`: `none` is unbounded, the default (R5, R19). -/
  stackDepth : Option Nat
deriving DecidableEq, Repr

/-- The recommended defaults: the full 15-bit address space and an unbounded stack (R5). -/
def Params.default : Params := { memSize := 32768, stackDepth := none }

end Sys2Proof
end

