-- ==== Sys2Proof/Machine/State.lean ====
section
/-! DEFINITION. The state of the core as plain data (10_state.md), the two channels as the core sees them (47_io.md),
and the state right after reset (R25). -/

namespace Sys2Proof.Machine

/-! ### Memory -/

/-- The cells that differ from `Memory.unlisted`, by word address (R21, R30): a list in one canonical form, see `Memory.wf`.
The cell is the 16-bit word because the spec has no smaller addressable unit (R30, R39). -/
abbrev Memory := List (Nat × Word)

/-- What an address below `MEMSIZE` reads as when nothing is listed for it: memory is zero-extended (R25). -/
abbrev Memory.unlisted : Word := 0

/-- The canonical form: addresses strictly rising, no entry equal to what an unlisted address reads as. -/
abbrev Memory.wf (m : Memory) : Prop :=
  m.Pairwise (fun c d => c.1 < d.1) ∧ ∀ c ∈ m, c.2 ≠ Memory.unlisted

/-- Every listed address exists: it is below `size` (R31). -/
abbrev Memory.within (size : Nat) (m : Memory) : Prop := ∀ c ∈ m, c.1 < size

/-! ### Run state -/

/-- The reasons of a normal end of run (R160). -/
inductive StopReason where
  | halted
  | programExhausted
  | inputExhausted
deriving DecidableEq, Repr

/-- The causes of a fault (R163). -/
inductive FaultCause where
  | invalidOperand
  | invalidDestination
  | memoryOutOfBounds
  | stackUnderflow
  | divideByZero
  | stackOverflow
deriving DecidableEq, Repr

/-- `run_state` (R22). -/
inductive RunState where
  | running
  | stopped (reason : StopReason)
  /-- `FAULTED(cause, at, info)`: `atPc` is the `pc` of the faulting instruction, `info` the offending word, address or depth. -/
  | faulted (cause : FaultCause) (atPc : Word) (info : Nat)
deriving DecidableEq, Repr

/-! ### The Input Source -/

/-- One coming answer of the Input Source: a character, or that none is available yet (R155). -/
inductive InputEvent where
  | char (c : Byte)
  | notYet
deriving DecidableEq, Repr

/-- How the Input Source answers every request after its listed events: `Wait` or `End` (R155). -/
inductive InputTail where
  | waits
  | ends
deriving DecidableEq, Repr

/-! ### The state -/

/-- Everything the spec gives the machine (R2, R10, R14, R18, R21, R22), the parameters fixed for its run (R5),
and the two streams of its environment (R24, R151, R155). -/
structure State where
  /-- `x[0]` to `x[7]` (R10). -/
  regs : Vector Word 8
  /-- The program counter, the source's `ip` (R14). -/
  pc : Word
  /-- The stack `S`, top entry first (R18). -/
  stack : List Word
  /-- Memory `M` (R21). -/
  mem : Memory
  /-- `run_state` (R22). -/
  runState : RunState
  /-- `MEMSIZE` and `STACK_DEPTH` (R5). No instruction writes them (R32). -/
  params : Params
  /-- The Input Source's coming answers, next one first (R155). -/
  input : List InputEvent
  /-- What the Input Source answers when `input` is used up (R155). -/
  inputTail : InputTail
  /-- The output stream: every character emitted since reset, oldest first (R151). -/
  output : List Byte
deriving DecidableEq, Repr

/-- `MEMSIZE` as a number (R31). -/
abbrev State.memSize (s : State) : Nat := s.params.memSize.val

/-- Why `step` gives no next state. -/
inductive Fault where
  /-- Raised by `step` alone, when `run_state` is not `RUNNING`: "In `STOPPED` and `FAULTED` no step is taken; only reset leaves
  them" (R22). Safe: the machine stops where the hardware stops. A fault of the core itself is not this: it is the state
  `FAULTED` of R163, reached by a next state. -/
  | notRunning
deriving DecidableEq, Repr

/-- Why an instruction has no meaning. -/
inductive Refusal where
  /-- Raised by an arm of `exec` for an instruction without a meaning. Safe. No arm raises it: every instruction is modelled. -/
  | notModelled (mnemonic : String)
deriving DecidableEq, Repr

/-- The state after reset (R25) for the empty image and the default parameters: registers 0, `pc` 0, empty stack, memory
all zero, running. The two streams are the environment's: no input, answered by `End`, and no output (95_test_vectors.md). -/
def State.reset : State where
  regs := Vector.replicate 8 0
  pc := 0
  stack := []
  mem := []
  runState := .running
  params := Params.default
  input := []
  inputTail := .ends
  output := []

end Sys2Proof.Machine
end

