-- ==== Sys2Proof/Machine/Ops.lean ====
section
/-! DEFINITION. The named operations over memory, registers, stack, channels and run state: the primitives of
00_scope.md section 6, each written once. Taking a fault is `State.raise`, a normal stop is `State.stop`;
there is no return from either but reset (60_exceptions.md rule R166), so no return operation stands beside them. -/

namespace Sys2Proof.Machine

/-! ### Memory cells -/

/-- The word at an address of a memory that has it (R21). -/
def Memory.read : Memory → Nat → Word
  | [], _ => Memory.unlisted
  | (b, v) :: rest, a => if a = b then v else Memory.read rest a

/-- An entry for `v` at `a` in front of `rest`, or none when `v` is what an unlisted address reads as. -/
def Memory.entry (a : Nat) (v : Word) (rest : Memory) : Memory :=
  if v = Memory.unlisted then rest else (a, v) :: rest

/-- The memory with `v` at `a`, in canonical form when it was so before (R34). -/
def Memory.write : Memory → Nat → Word → Memory
  | [], a, v => Memory.entry a v []
  | (b, w) :: rest, a, v =>
    if a < b then Memory.entry a v ((b, w) :: rest)
    else if a = b then Memory.entry a v rest
    else (b, w) :: Memory.write rest a v

/-- The memory with the words `ws` from address `a` upward. -/
def Memory.writeList (m : Memory) (a : Nat) : List Word → Memory
  | [] => m
  | w :: ws => Memory.writeList (m.write a w) (a + 1) ws

/-! ### Registers and program counter -/

/-- `x[r]` (R12). -/
def State.readReg (s : State) (r : RegIndex) : Word := s.regs[r]

/-- `x[r] <- v`: the word is stored whole, no mask and no check (R13). -/
def State.writeReg (s : State) (r : RegIndex) (v : Word) : State := { s with regs := s.regs.set r v }

/-- The fixed advance `pc <- pc + n` (R15). -/
def State.advance (s : State) (n : Nat) : State := { s with pc := s.pc + BitVec.ofNat 16 n }

/-- `pc <- target`, any 16-bit word, no check (R16, R103). -/
def State.jump (s : State) (target : Word) : State := { s with pc := target }

/-! ### Ending the run -/

/-- What `raise <Fault>(info)` reports (R163). -/
structure Raised where
  cause : FaultCause
  info : Nat
deriving DecidableEq, Repr

/-- `raise`: `run_state <- FAULTED(cause, pc, info)` and nothing else changes (R164). -/
def State.raise (s : State) (e : Raised) : State := { s with runState := .faulted e.cause s.pc e.info }

/-- `stop(reason)`: `run_state <- STOPPED(reason)` and nothing else changes (R161). -/
def State.stop (s : State) (reason : StopReason) : State := { s with runState := .stopped reason }

/-- What an instruction answers: a next state always, since a fault of the core is a state (R22, R60). -/
abbrev Result := Host.Outcome State Fault Refusal

/-- The end of an instruction that began in `s`: its new state, or `s` with its first fault recorded (R164). -/
def State.finish (s : State) : Except Raised State → Result
  | .ok t => .next t
  | .error e => .next (s.raise e)

/-! ### Memory access by address -/

/-- `MemRead(addr, 1)` (R33). -/
def State.memRead (s : State) (addr : Word) : Except Raised Word :=
  if addr.toNat < s.memSize then .ok (s.mem.read addr.toNat)
  else .error { cause := .memoryOutOfBounds, info := addr.toNat }

/-- `MemWrite(addr, 1, v)` (R34): memory never grows (R32). -/
def State.memWrite (s : State) (addr v : Word) : Except Raised State :=
  if addr.toNat < s.memSize then .ok { s with mem := s.mem.write addr.toNat v }
  else .error { cause := .memoryOutOfBounds, info := addr.toNat }

/-! ### Stack -/

/-- `push(v)` (R19): `StackOverflow` only when `STACK_DEPTH` is finite and reached. -/
def State.pushWord (s : State) (v : Word) : Except Raised State :=
  if s.params.stackDepth = some s.stack.length then .error { cause := .stackOverflow, info := s.stack.length }
  else .ok { s with stack := v :: s.stack }

/-- `pop()` (R20): the top word and the state without it, none when the stack is empty. -/
def State.popWord (s : State) : Option (Word × State) :=
  match s.stack with
  | [] => none
  | v :: rest => some (v, { s with stack := rest })

/-! ### Channels -/

/-- `OutEmit(b)`: appended to the output stream, always accepted (R151). -/
def State.outEmit (s : State) (b : Byte) : State := { s with output := s.output ++ [b] }

/-- An answer of the Input Source (R155). -/
inductive InputAnswer where
  | char (c : Byte)
  | wait
  | ended
deriving DecidableEq, Repr

/-- `InNext()`: the answer to one request, and the state after it, in which only the source's position may have moved (R155). -/
def State.inNext (s : State) : InputAnswer × State :=
  match s.input with
  | .char c :: rest => (.char c, { s with input := rest })
  | .notYet :: rest => (.wait, { s with input := rest })
  | [] =>
    match s.inputTail with
    | .waits => (.wait, s)
    | .ends => (.ended, s)

end Sys2Proof.Machine
end

