-- ==== Sys2Proof/Machine/Operands.lean ====
section
/-! DEFINITION. Operand resolution (30_encoding.md rules R55 to R58). There are two operand forms, value and destination;
an instruction takes its operands in memory order, so the first bad word is the one reported (R57). -/

namespace Sys2Proof.Machine

/-- `val(w)` (R55): one level deep, the register's whole contents. -/
def State.val (s : State) : Operand → Except Raised Word
  | .lit v => .ok (v.setWidth 16)
  | .reg r => .ok (s.readReg r)
  | .invalid w => .error { cause := .invalidOperand, info := w.toNat }

/-- `dst(w)` (R56): only a register reference names a destination; the fault records the word itself. -/
def dst : Operand → Except Raised RegIndex
  | .reg r => .ok r
  | .lit v => .error { cause := .invalidDestination, info := v.toNat }
  | .invalid w => .error { cause := .invalidDestination, info := w.toNat }

/-- The common form `dest := f(val(a))` of a three-word instruction (R62). -/
def State.unary (s : State) (f : Word → Word) (d a : Operand) : Result :=
  s.finish do
    let r ← dst d
    let va ← s.val a
    pure ((s.writeReg r (f va)).advance 3)

/-- The common form `dest := f(val(a), val(b))` of a four-word instruction (R62). -/
def State.binary (s : State) (f : Word → Word → Word) (d a b : Operand) : Result :=
  s.finish do
    let r ← dst d
    let va ← s.val a
    let vb ← s.val b
    pure ((s.writeReg r (f va vb)).advance 4)

/-- The common form of a conditional jump (R101, R102): the target is resolved, taken or not. -/
def State.branch (s : State) (taken : Word → Bool) (a b : Operand) : Result :=
  s.finish do
    let c ← s.val a
    let t ← s.val b
    pure (if taken c then s.jump t else s.advance 3)

end Sys2Proof.Machine
end

