-- ==== Sys2Proof/Machine/Alu.lean ====
section
/-! DEFINITION. Arithmetic and logic (44_alu.md). -/

namespace Sys2Proof.Machine

/-- `add` (R110). -/
def execAdd (d a b : Operand) (s : State) : Result := s.binary addResult d a b

/-- `mult` (R111). -/
def execMult (d a b : Operand) (s : State) : Result := s.binary multResult d a b

/-- `mod` (R112): the divisor is tested after every operand word has passed. -/
def execMod (d a b : Operand) (s : State) : Result :=
  s.finish do
    let r ← dst d
    let va ← s.val a
    let vb ← s.val b
    if vb = 0 then .error { cause := .divideByZero, info := 0 }
    else pure ((s.writeReg r (modResult va vb)).advance 4)

/-- `and` (R113). -/
def execAnd (d a b : Operand) (s : State) : Result := s.binary andResult d a b

/-- `or` (R114). -/
def execOr (d a b : Operand) (s : State) : Result := s.binary orResult d a b

/-- `not` (R115). -/
def execNot (d a : Operand) (s : State) : Result := s.unary notResult d a

end Sys2Proof.Machine
end

