-- ==== Sys2Proof/Machine/CallRet.lean ====
section
/-! DEFINITION. Subroutines (46_call_ret.md). -/

namespace Sys2Proof.Machine

/-- `call` (R140): pushes `pc + 2`, a 16-bit sum stored unreduced. -/
def execCall (a : Operand) (s : State) : Result :=
  s.finish do
    let target ← s.val a
    let t ← s.pushWord (s.pc + 2)
    pure (t.jump target)

/-- `ret` (R141): with an empty stack the run stops, normally. -/
def execRet (s : State) : Result :=
  match s.popWord with
  | none => .next (s.stop .halted)
  | some (target, t) => .next (t.jump target)

end Sys2Proof.Machine
end

