-- ==== Sys2Proof/Machine/Compare.lean ====
section
/-! DEFINITION. Comparisons (42_compare.md). -/

namespace Sys2Proof.Machine

/-- `eq` (R95). -/
def execEq (d a b : Operand) (s : State) : Result := s.binary eqResult d a b

/-- `gt` (R96). -/
def execGt (d a b : Operand) (s : State) : Result := s.binary gtResult d a b

end Sys2Proof.Machine
end

