-- ==== Sys2Proof/Machine/Control.lean ====
section
/-! DEFINITION. Machine control (40_machine_control.md). -/

namespace Sys2Proof.Machine

/-- `halt` (R80): `pc` stays at the `halt`. -/
def execHalt (s : State) : Result := .next (s.stop .halted)

/-- `noop` (R81): every opcode word outside 0..20, all alike. -/
def execNoop (s : State) : Result := .next (s.advance 1)

end Sys2Proof.Machine
end

