-- ==== Sys2Proof/Machine/Io.lean ====
section
/-! DEFINITION. Character input and output (47_io.md). -/

namespace Sys2Proof.Machine

/-- `out` (R150): bits 7..0 of the value. -/
def execOut (a : Operand) (s : State) : Result :=
  s.finish do
    let v ← s.val a
    pure ((s.outEmit (v.setWidth 8)).advance 2)

/-- `in` (R153): the destination is checked before the source is asked. On `Wait` the core's state does not change
and the same step is attempted again; on `End` the run stops with `pc` at the `in`. -/
def execIn (d : Operand) (s : State) : Result :=
  s.finish do
    let r ← dst d
    match s.inNext with
    | (.char c, t) => pure ((t.writeReg r (c.setWidth 16)).advance 2)
    | (.wait, t) => pure t
    | (.ended, t) => pure (t.stop .inputExhausted)

end Sys2Proof.Machine
end

