-- ==== Sys2Proof/Machine/Jumps.lean ====
section
/-! DEFINITION. Jumps (43_jumps.md). Targets are absolute and unchecked (R103). -/

namespace Sys2Proof.Machine

/-- `jmp` (R100). -/
def execJmp (a : Operand) (s : State) : Result :=
  s.finish do
    let t ← s.val a
    pure (s.jump t)

/-- `jt` (R101). -/
def execJt (a b : Operand) (s : State) : Result := s.branch nonZero a b

/-- `jf` (R102). -/
def execJf (a b : Operand) (s : State) : Result := s.branch isZero a b

end Sys2Proof.Machine
end

