-- ==== Sys2Proof/Machine/MemoryAccess.lean ====
section
/-! DEFINITION. Load and store (45_memory_access.md). The address is the resolved operand, as it is (R35). -/

namespace Sys2Proof.Machine

/-- `rmem` (R130): the cell is copied whole and not resolved again. -/
def execRmem (d a : Operand) (s : State) : Result :=
  s.finish do
    let r ← dst d
    let addr ← s.val a
    let v ← s.memRead addr
    pure ((s.writeReg r v).advance 3)

/-- `wmem` (R131): address first, data second. -/
def execWmem (a b : Operand) (s : State) : Result :=
  s.finish do
    let addr ← s.val a
    let v ← s.val b
    let t ← s.memWrite addr v
    pure (t.advance 3)

end Sys2Proof.Machine
end

