-- ==== Sys2Proof/Machine/SetStack.lean ====
section
/-! DEFINITION. Register move and stack (41_set_stack.md). -/

namespace Sys2Proof.Machine

/-- `set` (R85): the value is copied whole. -/
def execSet (d a : Operand) (s : State) : Result := s.unary id d a

/-- `push` (R86). -/
def execPush (a : Operand) (s : State) : Result :=
  s.finish do
    let v ← s.val a
    let t ← s.pushWord v
    pure (t.advance 2)

/-- `pop` (R87): the destination is checked before the stack. -/
def execPop (d : Operand) (s : State) : Result :=
  s.finish do
    let r ← dst d
    match s.popWord with
    | none => .error { cause := .stackUnderflow, info := 0 }
    | some (v, t) => pure ((t.writeReg r v).advance 2)

end Sys2Proof.Machine
end

