-- ==== Sys2Proof/Machine/Fetch.lean ====
section
/-! DEFINITION. The beginning of a step: the bounds check and the fetch (30_encoding.md rules R51 to R53, R60),
and the placing of an instruction where the next fetch finds it. -/

namespace Sys2Proof.Machine

/-- `FetchOperand(addr)` (R53): a word beyond memory reads as 0, no fault. -/
def State.fetchOperand (s : State) (addr : Nat) : Word := if addr < s.memSize then s.mem.read addr else 0

/-- Fetch and decode (R52): the opcode word at `pc` and the three words after it. Addresses are numbers, so `pc + 3` does not wrap. -/
def State.fetchInstr (s : State) : Instr :=
  decodeWords (s.mem.read s.pc.toNat) (s.fetchOperand (s.pc.toNat + 1)) (s.fetchOperand (s.pc.toNat + 2))
    (s.fetchOperand (s.pc.toNat + 3))

/-- What the beginning of a step comes to. -/
inductive Begun where
  /-- The instruction to execute. -/
  | execute (i : Instr)
  /-- The step is over without an instruction. -/
  | over (r : Result)

/-- Parts 1 and 2 of the step (R60): no step unless running (R22); past the end of memory the run stops (R51). -/
def State.startStep (s : State) : Begun :=
  match s.runState with
  | .running =>
    if s.pc.toNat < s.memSize then .execute s.fetchInstr else .over (.next (s.stop .programExhausted))
  | _ => .over (.fault .notRunning)

/-- Store `ws` from address `a` upward, as far as memory goes. -/
def State.place (s : State) (a : Nat) (ws : List Word) : State :=
  { s with mem := s.mem.writeList a (ws.take (s.memSize - a)) }

/-- The state in which the next step, if memory reaches far enough from `pc`, executes the instruction of the words `ws`:
they stand at `pc`, and the core is running. -/
def State.placeAtPc (s : State) (ws : List Word) : State := { s.place s.pc.toNat ws with runState := .running }

end Sys2Proof.Machine
end

