-- ==== Sys2Proof/Machine/Step.lean ====
section
/-! DEFINITION. One step of the core (30_encoding.md rule R60), atomic (00_scope.md rule R7). -/

namespace Sys2Proof.Machine

/-- Bounds check, fetch, dispatch, execute (R60). -/
def step (s : State) : Host.Outcome State Fault Refusal :=
  match s.startStep with
  | .execute i => exec i s
  | .over r => r

/-- The instruction of a row's bits, stored where `step` fetches its next instruction. -/
def State.withFetchWord (s : State) (nbits w : Nat) : State := s.placeAtPc (tableWords nbits w)

end Sys2Proof.Machine
end

