-- ==== Sys2Proof/Machine/Assembly.lean ====
section
/-! DEFINITION. The assembly text of the spec's listings (30_encoding.md rules R67, R68). It is notation, not hardware:
it turns text into an image, and the machine never sees it. -/

namespace Sys2Proof.Machine

/-- Why a text is no program. -/
inductive AsmError where
  /-- A single quote that does not enclose one character. -/
  | badQuote
  /-- A mnemonic that is none of R67's: there are no pseudo-instructions (R68). -/
  | unknownMnemonic (name : List Char)
  /-- A mnemonic with too few or too many operands. -/
  | operandCount (mnemonic : List Char)
  /-- An operand that is no register, no decimal literal in 0..32767, no character and no label of the text. -/
  | badOperand (text : List Char)
  /-- `.word` without one decimal number in 0..65535. -/
  | badWord
  /-- A label defined twice. -/
  | duplicateLabel (name : List Char)
  /-- A label whose address is above 32767, which no literal names. -/
  | labelTooHigh (name : List Char)
deriving DecidableEq, Repr

/-! ### Tokens -/

/-- A token: a run of plain characters, a quoted character, or the end of a statement (a line end or `;`, R67). -/
inductive Token where
  | plain (cs : List Char)
  | quoted (c : Char)
  | endOfStatement
deriving DecidableEq, Repr

/-- Where the reading of a text stands. -/
inductive LexMode where
  /-- Outside quotes and comments; the current token's characters, last one first. -/
  | code (cur : List Char)
  /-- Behind a `#`, up to the line's end (R68). -/
  | comment
  /-- Behind an opening quote. -/
  | quoteOpen
  /-- Behind the quoted character. -/
  | quoteClose (c : Char)
deriving DecidableEq, Repr

/-- Put the characters collected so far in front as one token. -/
def flushToken (cur : List Char) (rest : List Token) : List Token :=
  if cur.isEmpty then rest else .plain cur.reverse :: rest

/-- The tokens of a text. DESIGN CHOICE, safe: where R67 and R68 do not say what separates two tokens, white space, `;`, `#` and a
quote do, and no other character does; anything but the end of the text may stand between two quotes (notes/assumptions/16.md). -/
def tokens : LexMode → List Char → Except AsmError (List Token)
  | .code cur, [] => .ok (flushToken cur [])
  | .comment, [] => .ok []
  | .quoteOpen, [] => .error .badQuote
  | .quoteClose _, [] => .error .badQuote
  | .code cur, c :: cs =>
    if c = '\n' ∨ c = ';' then (tokens (.code []) cs).map (fun ts => flushToken cur (.endOfStatement :: ts))
    else if c = '#' then (tokens .comment cs).map (flushToken cur)
    else if c = '\'' then (tokens .quoteOpen cs).map (flushToken cur)
    else if c.isWhitespace then (tokens (.code []) cs).map (flushToken cur)
    else tokens (.code (c :: cur)) cs
  | .comment, c :: cs =>
    if c = '\n' then (tokens (.code []) cs).map (.endOfStatement :: ·) else tokens .comment cs
  | .quoteOpen, c :: cs => tokens (.quoteClose c) cs
  | .quoteClose c, q :: cs =>
    if q = '\'' then (tokens (.code []) cs).map (.quoted c :: ·) else .error .badQuote

/-- The statements of a token list; `cur` is the current one's tokens, last one first. -/
def statements (cur : List Token) : List Token → List (List Token)
  | [] => [cur.reverse]
  | .endOfStatement :: ts => cur.reverse :: statements [] ts
  | t :: ts => statements (t :: cur) ts

/-! ### Items -/

/-- An operand as written: a word, or a label's name to be looked up. -/
inductive AsmOperand where
  | word (w : Word)
  | label (name : List Char)
deriving DecidableEq, Repr

/-- What a statement puts into the image: a label's place, a raw word, or an instruction. -/
inductive AsmItem where
  | label (name : List Char)
  | raw (w : Word)
  | instruction (op : Word) (operands : List AsmOperand)
deriving DecidableEq, Repr

/-- A decimal number. -/
def decimal : List Char → Option Nat
  | [] => none
  | c :: cs => (c :: cs).foldl (fun acc d => acc.bind fun n => if d.isDigit then some (10 * n + (d.toNat - 48)) else none) (some 0)

/-- `r0` to `r7` (R67). -/
def registerName : List Char → Option RegIndex
  | ['r', d] => if '0' ≤ d ∧ d ≤ '7' then some (Fin.ofNat 8 (d.toNat - 48)) else none
  | _ => none

/-- One operand (R67): a register, a decimal literal, a character as its code point, or else a label's name. DESIGN CHOICE, safe: that
order, and what an operand that is none of them comes to (notes/assumptions/16.md). -/
def parseOperand : Token → Except AsmError AsmOperand
  | .quoted c => if c.toNat ≤ 32767 then .ok (.word (BitVec.ofNat 16 c.toNat)) else .error (.badOperand [c])
  | .endOfStatement => .error (.badOperand [])
  | .plain cs =>
    match registerName cs with
    | some r => .ok (.word (encodeOperand (.reg r)))
    | none =>
      match decimal cs with
      | some n => if n ≤ 32767 then .ok (.word (BitVec.ofNat 16 n)) else .error (.badOperand cs)
      | none => .ok (.label cs)

/-- The name in `name:`, if the token defines a label (R68). R68 leaves the form of a name open. DESIGN CHOICE, safe
(notes/assumptions/16.md): the colon is the token's last character, so white space, a quote, `;`, `#` or the end of the text stands
after it; the name is whatever stands before it, be it empty, a mnemonic, a register name or a number. -/
def labelDefined (cs : List Char) : Option (List Char) :=
  if cs.getLast? = some ':' then some cs.dropLast else none

/-- One statement: labels, and then at most one instruction or `.word` (R67, R68); more than one label, and a label with nothing
after it, are the model's choice (notes/assumptions/16.md). A mnemonic's opcode word is the lowest of
its row in the opcode map, so `noop` is 21 (R68). -/
def parseStatement : List Token → Except AsmError (List AsmItem)
  | [] => .ok []
  | .quoted c :: _ => .error (.unknownMnemonic [c])
  | .endOfStatement :: ts => parseStatement ts
  | .plain cs :: ts =>
    match labelDefined cs with
    | some name => (parseStatement ts).map (.label name :: ·)
    | none =>
      if cs = ".word".toList then
        match ts with
        | [.plain n] =>
          match decimal n with
          | some k => if k < 65536 then .ok [.raw (BitVec.ofNat 16 k)] else .error .badWord
          | none => .error .badWord
        | _ => .error .badWord
      else
        match opcodeTable.find? (fun row => decide (row.mnemonic.toList = cs)) with
        | none => .error (.unknownMnemonic cs)
        | some row =>
          if ts.length = row.roles.length then
            (ts.mapM parseOperand).map (fun operands => [.instruction (BitVec.ofNat 16 row.lo) operands])
          else .error (.operandCount cs)

/-! ### Addresses and words -/

/-- How many words an item has in the image. -/
def AsmItem.size : AsmItem → Nat
  | .label _ => 0
  | .raw _ => 1
  | .instruction _ operands => 1 + operands.length

/-- The labels of a program with their addresses; `addr` is the first item's address. -/
def labels (addr : Nat) : List AsmItem → List (List Char × Nat)
  | [] => []
  | .label name :: items => (name, addr) :: labels addr items
  | item :: items => labels (addr + item.size) items

/-- The word of an operand; a label is its address as a literal (R68). -/
def resolveOperand (table : List (List Char × Nat)) : AsmOperand → Except AsmError Word
  | .word w => .ok w
  | .label name =>
    match table.find? (fun entry => decide (entry.1 = name)) with
    | none => .error (.badOperand name)
    | some entry => if entry.2 ≤ 32767 then .ok (BitVec.ofNat 16 entry.2) else .error (.labelTooHigh name)

/-- The words of an item. -/
def AsmItem.emit (table : List (List Char × Nat)) : AsmItem → Except AsmError (List Word)
  | .label _ => .ok []
  | .raw w => .ok [w]
  | .instruction op operands => (operands.mapM (resolveOperand table)).map (op :: ·)

/-- The first name that a list of labels holds twice. -/
def repeatedLabel : List (List Char × Nat) → Option (List Char)
  | [] => none
  | entry :: rest => if rest.any (fun other => decide (other.1 = entry.1)) then some entry.1 else repeatedLabel rest

/-- The image of a program text, from address 0 (R67, R68). -/
def assemble (text : String) : Except AsmError (List Word) := do
  let ts ← tokens (.code []) text.toList
  let items ← (statements [] ts).mapM parseStatement
  let program := items.flatten
  let table := labels 0 program
  match repeatedLabel table with
  | some name => .error (.duplicateLabel name)
  | none => (program.mapM (AsmItem.emit table)).map List.flatten

end Sys2Proof.Machine
end

