-- ==== Sys2Proof/Machine/Load.lean ====
section
/-! DEFINITION. Reset and image load as one event (70_reset_and_hazards.md rule R190), and the image's word format
(20_memory.md rule R38). What is refused here is refused before the machine exists: the loader's errors, not faults of the core. -/

namespace Sys2Proof.Machine

/-- Why no machine is built from an image (R38). -/
inductive LoadError where
  /-- The file has an odd number of bytes. -/
  | oddTrailingByte
  /-- The image has more words than memory has cells. -/
  | imageTooLong (words memSize : Nat)
deriving DecidableEq, Repr

/-- The image words of a file's bytes: the byte at the lower offset is bits 7..0 (R38). -/
def wordsOfBytes : List Byte → Except LoadError (List Word)
  | [] => .ok []
  | [_] => .error .oddTrailingByte
  | lo :: hi :: rest => do
    let ws ← wordsOfBytes rest
    pure (BitVec.ofNat 16 (lo.toNat + 256 * hi.toNat) :: ws)

/-- The bytes of an image's words (R38). -/
def bytesOfWords : List Word → List Byte
  | [] => []
  | w :: ws => w.setWidth 8 :: (w >>> 8).setWidth 8 :: bytesOfWords ws

/-- Reset (R190): the state of R25 for an image, the machine's parameters and an Input Source. Nothing of an earlier run is an
argument, so nothing of it is left. -/
def boot (params : Params) (image : List Word) (input : List InputEvent) (inputTail : InputTail) : Except LoadError State :=
  if image.length ≤ params.memSize.val then
    .ok { State.reset with
      mem := Memory.writeList [] 0 image
      params := params
      input := input
      inputTail := inputTail }
  else .error (.imageTooLong image.length params.memSize.val)

end Sys2Proof.Machine
end

