-- ==== Sys2Proof/Machine/Reference.lean ====
section
/-! DEFINITION. The step's pseudocode (30_encoding.md rule R60 and the instruction rules it calls), written once more over raw
words as natural numbers, without Instr, without the decoder and without the meanings. `step` does not call it:
it is what a refinement statement holds the machine against. -/

namespace Sys2Proof.Reference

open Sys2Proof.Machine

/-- A check that may raise a fault with its recorded word or address. -/
abbrev Check := Except (FaultCause × Nat)

/-- `x[i]`; there is no register above 7. -/
def x (s : State) (i : Nat) : Nat := if h : i < 8 then s.regs[i].toNat else 0

/-- `M[a]`. -/
def cell (s : State) (a : Nat) : Nat := (s.mem.read a).toNat

/-- `FetchOperand(addr)` (R53). -/
def fetchOperand (s : State) (a : Nat) : Nat := if a < s.memSize then cell s a else 0

/-- `val(w)` (R55). -/
def val (s : State) (w : Nat) : Check Nat :=
  if w ≤ 32767 then .ok w else if w ≤ 32775 then .ok (x s (w - 32768)) else .error (.invalidOperand, w)

/-- `dst(w)` (R56). -/
def dst (w : Nat) : Check Nat :=
  if 32768 ≤ w ∧ w ≤ 32775 then .ok (w - 32768) else .error (.invalidDestination, w)

/-- `pc <- a`. -/
def goto (s : State) (a : Nat) : State := { s with pc := BitVec.ofNat 16 a }

/-- `x[d] <- v; pc <- a`. -/
def write (s : State) (d v a : Nat) : State :=
  goto { s with regs := s.regs.setIfInBounds d (BitVec.ofNat 16 v) } a

/-- `push(v); pc <- a` (R19). -/
def push (s : State) (v a : Nat) : Check State :=
  if s.params.stackDepth = some s.stack.length then .error (.stackOverflow, s.stack.length)
  else .ok (goto { s with stack := BitVec.ofNat 16 v :: s.stack } a)

/-- A conditional jump to `t` (R101, R102). -/
def branch (s : State) (taken : Bool) (t : Nat) : State := goto s (if taken then t else s.pc.toNat + 3)

/-- Parts 2 and 3 of the step: fetch and dispatch on the whole opcode word (R52, R60). -/
def body (s : State) : Check State := do
  let pc := s.pc.toNat
  let w1 := fetchOperand s (pc + 1)
  let w2 := fetchOperand s (pc + 2)
  let w3 := fetchOperand s (pc + 3)
  match cell s pc with
  | 0 => pure { s with runState := .stopped .halted }
  | 1 => do
    let d ← dst w1
    let v ← val s w2
    pure (write s d v (pc + 3))
  | 2 => do
    let v ← val s w1
    push s v (pc + 2)
  | 3 => do
    let d ← dst w1
    match s.stack with
    | [] => .error (.stackUnderflow, 0)
    | v :: rest => pure (write { s with stack := rest } d v.toNat (pc + 2))
  | 4 => do
    let d ← dst w1
    let va ← val s w2
    let vb ← val s w3
    pure (write s d (if va = vb then 1 else 0) (pc + 4))
  | 5 => do
    let d ← dst w1
    let va ← val s w2
    let vb ← val s w3
    pure (write s d (if va > vb then 1 else 0) (pc + 4))
  | 6 => do
    let t ← val s w1
    pure (goto s t)
  | 7 => do
    let c ← val s w1
    let t ← val s w2
    pure (branch s (c != 0) t)
  | 8 => do
    let c ← val s w1
    let t ← val s w2
    pure (branch s (c == 0) t)
  | 9 => do
    let d ← dst w1
    let va ← val s w2
    let vb ← val s w3
    pure (write s d ((va + vb) % 32768) (pc + 4))
  | 10 => do
    let d ← dst w1
    let va ← val s w2
    let vb ← val s w3
    pure (write s d (va * vb % 32768) (pc + 4))
  | 11 => do
    let d ← dst w1
    let va ← val s w2
    let vb ← val s w3
    if vb = 0 then .error (.divideByZero, 0) else pure (write s d (va % vb % 32768) (pc + 4))
  | 12 => do
    let d ← dst w1
    let va ← val s w2
    let vb ← val s w3
    pure (write s d (Nat.land va vb % 32768) (pc + 4))
  | 13 => do
    let d ← dst w1
    let va ← val s w2
    let vb ← val s w3
    pure (write s d (Nat.lor va vb % 32768) (pc + 4))
  | 14 => do
    let d ← dst w1
    let va ← val s w2
    pure (write s d (32767 - va % 32768) (pc + 3))
  | 15 => do
    let d ← dst w1
    let addr ← val s w2
    if addr < s.memSize then pure (write s d (cell s addr) (pc + 3)) else .error (.memoryOutOfBounds, addr)
  | 16 => do
    let addr ← val s w1
    let v ← val s w2
    if addr < s.memSize then pure (goto { s with mem := s.mem.write addr (BitVec.ofNat 16 v) } (pc + 3))
    else .error (.memoryOutOfBounds, addr)
  | 17 => do
    let t ← val s w1
    push s (pc + 2) t
  | 18 =>
    match s.stack with
    | [] => pure { s with runState := .stopped .halted }
    | t :: rest => pure (goto { s with stack := rest } t.toNat)
  | 19 => do
    let v ← val s w1
    pure (goto { s with output := s.output ++ [BitVec.ofNat 8 (v % 256)] } (pc + 2))
  | 20 => do
    let d ← dst w1
    match s.input, s.inputTail with
    | .char c :: rest, _ => pure (write { s with input := rest } d c.toNat (pc + 2))
    | .notYet :: rest, _ => pure { s with input := rest }
    | [], .waits => pure s
    | [], .ends => pure { s with runState := .stopped .inputExhausted }
  | _ => pure (goto s (pc + 1))

/-- The whole step of a running core (R60): the bounds check, then `body`, a fault changing nothing but `run_state` (R164). -/
def stepState (s : State) : State :=
  if s.pc.toNat ≥ s.memSize then { s with runState := .stopped .programExhausted }
  else
    match body s with
    | .ok t => t
    | .error (cause, info) => { s with runState := .faulted cause s.pc info }

end Sys2Proof.Reference
end

