-- ==== Sys2Proof/Machine/Run.lean ====
section
/-! DEFINITION. The run (30_encoding.md rule R61), its end (70_reset_and_hazards.md rule R193), and what the host reads then
(60_exceptions.md rules R160, R163, R168). -/

namespace Sys2Proof.Machine

/-- `run`, as far as `n` steps take it: it stops as soon as the state is not `RUNNING` (R61). -/
def runFor : Nat → State → State
  | 0, s => s
  | n + 1, s =>
    match step s with
    | .next t => runFor n t
    | .fault _ => s
    | .refused _ => s

/-- A run has ended exactly when `run_state` is not `RUNNING` (R193). -/
def State.ended (s : State) : Bool := s.runState != .running

/-- Ended by a terminal condition (R160, R193). -/
def State.endedNormally (s : State) : Bool :=
  match s.runState with
  | .running => false
  | .stopped _ => true
  | .faulted _ _ _ => false

/-- Ended by a fault (R163, R193). -/
def State.endedAbnormally (s : State) : Bool :=
  match s.runState with
  | .running => false
  | .stopped _ => false
  | .faulted _ _ _ => true

/-- The codes of the reasons (R160). -/
def StopReason.code : StopReason → Byte
  | .halted => 0x01
  | .programExhausted => 0x02
  | .inputExhausted => 0x03

/-- The codes of the causes (R163). -/
def FaultCause.code : FaultCause → Byte
  | .invalidOperand => 0x10
  | .invalidDestination => 0x11
  | .memoryOutOfBounds => 0x12
  | .stackUnderflow => 0x13
  | .divideByZero => 0x14
  | .stackOverflow => 0x15

/-- The code of a run state; 0x00 is `RUNNING` (R22, 92_eei_decisions.md D15). -/
def RunState.code : RunState → Byte
  | .running => 0x00
  | .stopped reason => reason.code
  | .faulted cause _ _ => cause.code

/-- What every host can read after a run: `run_state` and the output stream (R168, R193). -/
def State.result (s : State) : RunState × List Byte := (s.runState, s.output)

end Sys2Proof.Machine
end

