-- ==== Sys2Proof/Machine/Trace.lean ====
section
/-! DEFINITION. The assembly notation of one instruction (30_encoding.md rule R67) and the optional trace hook (R69, R181).
Both are functions OF a state: `step` calls neither, so neither alters execution. -/

namespace Sys2Proof.Machine

/-- A literal as its decimal value, a register as `r<index>`, an invalid word as its decimal value (R67, R69). -/
def renderOperand : Operand → String
  | .lit v => toString v.toNat
  | .reg r => "r" ++ toString r.val
  | .invalid w => toString w.toNat

/-- An instruction as its mnemonic and its operands in memory order, separated by spaces (R67). -/
def renderInstr (i : Instr) : String := " ".intercalate (i.mnemonic :: i.operands.map renderOperand)

/-- A trace record `(ip, mnemonic, operand strings)` (R69). -/
structure TraceRecord where
  ip : Word
  mnemonic : String
  operands : List String
deriving DecidableEq, Repr

/-- The record emitted immediately before a step executes a decoded instruction; none when the step executes none (R69, R181). -/
def State.traceRecord (s : State) : Option TraceRecord :=
  match s.startStep with
  | .execute i => some { ip := s.pc, mnemonic := i.mnemonic, operands := i.operands.map renderOperand }
  | .over _ => none

end Sys2Proof.Machine
end

