-- ==== Sys2Proof/Safety.lean ====
section
/-! DEFINITION. The terms claims use: what an operand reads as and names, the invariant of reachable states, what an ended run
says about the state it ended in, reachability and a safe run. -/

namespace Sys2Proof.Machine

/-! ### Operands -/

/-- The value of a value operand (R55), none for an invalid word. -/
def State.valueOf (s : State) : Operand → Option Word
  | .lit v => some (v.setWidth 16)
  | .reg r => some s.regs[r]
  | .invalid _ => none

/-- The register a destination operand names (R56), none for any other word. -/
def destOf : Operand → Option RegIndex
  | .lit _ => none
  | .reg r => some r
  | .invalid _ => none

/-- The state `FAULTED(cause, pc, info)` with everything else as in `s` (R164). -/
def State.faultedWith (s : State) (cause : FaultCause) (info : Nat) : State :=
  { s with runState := .faulted cause s.pc info }

/-- The state `STOPPED(reason)` with everything else as in `s` (R161). -/
def State.stoppedWith (s : State) (reason : StopReason) : State := { s with runState := .stopped reason }

/-! ### Invariant -/

/-- Memory is canonical and lists no address at or above `MEMSIZE`, and the stack is no deeper than a finite `STACK_DEPTH`. -/
abbrev State.Inv (s : State) : Prop :=
  s.mem.wf ∧ s.mem.within s.memSize ∧ ∀ d ∈ s.params.stackDepth, s.stack.length ≤ d

/-! ### The end of a run, explained -/

/-- The operand positions of an opcode that hold value words (R62, R163). -/
def valuePositions (op : Nat) : List Nat :=
  match op with
  | 1 => [2]
  | 2 => [1]
  | 4 => [2, 3]
  | 5 => [2, 3]
  | 6 => [1]
  | 7 => [1, 2]
  | 8 => [1, 2]
  | 9 => [2, 3]
  | 10 => [2, 3]
  | 11 => [2, 3]
  | 12 => [2, 3]
  | 13 => [2, 3]
  | 14 => [2]
  | 15 => [2]
  | 16 => [1, 2]
  | 17 => [1]
  | 19 => [1]
  | _ => []

/-- The opcodes whose `w1` is a destination word (R12, R62). -/
def destOpcodes : List Nat := [1, 3, 4, 5, 9, 10, 11, 12, 13, 14, 15, 20]

/-- The word at `pc + k` as the step fetches it (R52, R53), as a number. -/
def State.wordAt (s : State) (k : Nat) : Nat := (s.fetchOperand (s.pc.toNat + k)).toNat

/-- Operand word `j` passes its check: a register reference where a destination stands, not invalid where a value does (R55, R56). -/
abbrev State.wordPasses (s : State) (j : Nat) : Prop :=
  if j = 1 ∧ s.wordAt 0 ∈ destOpcodes then 32768 ≤ s.wordAt 1 ∧ s.wordAt 1 ≤ 32775 else s.wordAt j ≤ 32775

/-- The table of fault causes (R163) read at the state a fault leaves, which is the state the faulting step began in but for
`run_state` (R164); the recorded word is the first bad one (R57). -/
def State.FaultExplained (s : State) (cause : FaultCause) (info : Nat) : Prop :=
  match cause with
  | .invalidOperand =>
    ∃ k ∈ valuePositions (s.wordAt 0), s.wordAt k = info ∧ 32776 ≤ info ∧ ∀ j ∈ [1, 2], j < k → s.wordPasses j
  | .invalidDestination => s.wordAt 0 ∈ destOpcodes ∧ s.wordAt 1 = info ∧ ¬(32768 ≤ info ∧ info ≤ 32775)
  | .memoryOutOfBounds =>
    s.memSize ≤ info ∧
      ((s.wordAt 0 = 15 ∧ Reference.val s (s.wordAt 2) = .ok info) ∨
        (s.wordAt 0 = 16 ∧ Reference.val s (s.wordAt 1) = .ok info))
  | .stackUnderflow => s.wordAt 0 = 3 ∧ s.stack = [] ∧ info = 0
  | .divideByZero => s.wordAt 0 = 11 ∧ Reference.val s (s.wordAt 3) = .ok 0 ∧ info = 0
  | .stackOverflow =>
    (s.wordAt 0 = 2 ∨ s.wordAt 0 = 17) ∧ s.params.stackDepth = some s.stack.length ∧ info = s.stack.length

/-- `run_state` tells the truth about the state the run ended in: the four terminal conditions (R160), and for a fault its `at`
and the table of causes (R163). -/
def State.EndExplained (s : State) : Prop :=
  match s.runState with
  | .running => True
  | .stopped .halted => s.pc.toNat < s.memSize ∧ (s.wordAt 0 = 0 ∨ (s.wordAt 0 = 18 ∧ s.stack = []))
  | .stopped .programExhausted => s.memSize ≤ s.pc.toNat
  | .stopped .inputExhausted =>
    s.pc.toNat < s.memSize ∧ s.wordAt 0 = 20 ∧ s.wordPasses 1 ∧ s.input = [] ∧ s.inputTail = .ends
  | .faulted cause atPc info => atPc = s.pc ∧ s.pc.toNat < s.memSize ∧ s.FaultExplained cause info

/-! ### Runs -/

/-- `t` is reached from `s` by steps. -/
inductive Reaches (s : State) : State → Prop where
  | refl : Reaches s s
  | step {t u : State} (h : Reaches s t) (next : step t = .next u) : Reaches s u

/-- A safe run: no reachable state is `FAULTED` (R162: "A fault is never a way of ending a correct program"). -/
def State.NeverFaults (s : State) : Prop := ∀ t, Reaches s t → t.endedAbnormally = false

end Sys2Proof.Machine
end

