-- ==== Sys2Proof/Certificates/Slice0/Obligations.lean ====
section
/-! DEFINITION. The statements for the provers. Each is about the machine, for every state and every operand; what a rule of the
spec decides for itself (92_eei_decisions.md) or the model chooses (notes/assumptions) is named in the statement's docstring. -/

namespace Sys2Proof.Claims

open Sys2Proof.Machine

/-- The fault of the first operand word, in memory order, that its role does not admit (R55, R56, R57). -/
def firstBadWord : List (Role × Operand) → Option (FaultCause × Nat)
  | [] => none
  | (.dest, o) :: rest =>
    match destOf o with
    | none => some (.invalidDestination, (encodeOperand o).toNat)
    | some _ => firstBadWord rest
  | (.value, .invalid w) :: _ => some (.invalidOperand, w.toNat)
  | (.value, .lit _) :: rest => firstBadWord rest
  | (.value, .reg _) :: rest => firstBadWord rest

/-- With a bad operand word the instruction changes nothing but `run_state`, which records the first bad word. That the words are
checked in memory order before anything else and that a fault leaves the rest untouched is decision D8 (R57, R164;
notes/assumptions/13.md), so every statement that uses this rests on D8. -/
def ChecksFirst (i : Instr) (operands : List (Role × Operand)) : Prop :=
  ∀ (s : State) (cause : FaultCause) (info : Nat),
    firstBadWord operands = some (cause, info) → exec i s = .next (s.faultedWith cause info)

/-- A three-word instruction `op dest a`: its words, its checks, and `x[d] <- f(val(a)); pc <- pc + 3` with nothing else changed. -/
def ThreeWordRule (op : Word) (mk : Operand → Operand → Instr) (f : Nat → Nat) : Prop :=
  ∀ d a : Operand,
    encode (mk d a) = [op, encodeOperand d, encodeOperand a] ∧
    ChecksFirst (mk d a) [(.dest, d), (.value, a)] ∧
    ∀ (s : State) (r : RegIndex) (va : Word), destOf d = some r → s.valueOf a = some va →
      exec (mk d a) s = .next { s with regs := s.regs.set r (BitVec.ofNat 16 (f va.toNat)), pc := s.pc + 3 }

/-- A four-word instruction `op dest a b`: its words, its checks, and `x[d] <- f(val(a), val(b)); pc <- pc + 4` with nothing
else changed. -/
def FourWordRule (op : Word) (mk : Operand → Operand → Operand → Instr) (f : Nat → Nat → Nat) : Prop :=
  ∀ d a b : Operand,
    encode (mk d a b) = [op, encodeOperand d, encodeOperand a, encodeOperand b] ∧
    ChecksFirst (mk d a b) [(.dest, d), (.value, a), (.value, b)] ∧
    ∀ (s : State) (r : RegIndex) (va vb : Word), destOf d = some r → s.valueOf a = some va → s.valueOf b = some vb →
      exec (mk d a b) s = .next { s with regs := s.regs.set r (BitVec.ofNat 16 (f va.toNat vb.toNat)), pc := s.pc + 4 }

/-- A conditional jump `op a b`: its words, its checks (the target's too, taken or not), and `pc` at the target or at `pc + 3`
with nothing else changed. -/
def BranchRule (op : Word) (mk : Operand → Operand → Instr) (taken : Nat → Bool) : Prop :=
  ∀ a b : Operand,
    encode (mk a b) = [op, encodeOperand a, encodeOperand b] ∧
    ChecksFirst (mk a b) [(.value, a), (.value, b)] ∧
    ∀ (s : State) (c t : Word), s.valueOf a = some c → s.valueOf b = some t →
      exec (mk a b) s = .next { s with pc := if taken c.toNat then t else s.pc + 3 }

end Sys2Proof.Claims

open Sys2Proof Sys2Proof.Machine Sys2Proof.Claims

/-! ### Encoding -/

/-- Every well-formed instruction, with every operand its encoding admits, is read back from its words, whatever follows them
(30_encoding.md R50, R62, R65). -/
def Obligations.DecodeOfEncodeGivesTheInstructionBack : Prop :=
  ∀ (i : Instr) (rest : List Word), i.wf = true → decode (encode i ++ rest) = .ok (i, rest)

/-- The other direction: what the decoder reads is well-formed and its words are the words read. -/
def Obligations.EncodeOfDecodeGivesTheWordsBack : Prop :=
  ∀ (ws : List Word) (i : Instr) (rest : List Word), decode ws = .ok (i, rest) → i.wf = true ∧ encode i ++ rest = ws

/-- R54: the three classes of an operand word. An invalid word is a fault wherever it stands as an operand. -/
def Obligations.OperandWordsFallIntoThreeClasses : Prop :=
  ∀ w : Word,
    (w.toNat ≤ 32767 → ∃ v : Literal, decodeOperand w = .lit v ∧ v.toNat = w.toNat) ∧
    (32768 ≤ w.toNat → w.toNat ≤ 32775 → ∃ r : RegIndex, decodeOperand w = .reg r ∧ r.val = w.toNat - 32768) ∧
    (32776 ≤ w.toNat → decodeOperand w = .invalid w ∧
      (∀ s : State, s.val (.invalid w) = .error { cause := .invalidOperand, info := w.toNat }) ∧
      dst (.invalid w) = .error { cause := .invalidDestination, info := w.toNat })

/-- R62, R65: every opcode word is in exactly one row of the opcode map, and the decoder gives it that row's mnemonic, that row's
number of operand words, taken in memory order, and that row's length. -/
def Obligations.EveryOpcodeWordDecodesByItsOneRow : Prop :=
  ∀ op w1 w2 w3 : Word, ∃ row ∈ opcodeTable,
    row.covers op = true ∧ (∀ other ∈ opcodeTable, other.covers op = true → other = row) ∧
    (decodeWords op w1 w2 w3).opcode = op ∧
    (decodeWords op w1 w2 w3).mnemonic = row.mnemonic ∧
    (decodeWords op w1 w2 w3).operands = ([w1, w2, w3].take row.roles.length).map decodeOperand ∧
    instrLength op = row.format.words ∧ row.format.words = 1 + row.roles.length

/-- R63: an opcode word outside 0..20 is the no-op, and a step on it only advances `pc` by 1. -/
def Obligations.UnknownOpcodesAreNoops : Prop :=
  ∀ s : State, s.runState = .running → s.pc.toNat < s.memSize → 21 ≤ (s.mem.read s.pc.toNat).toNat →
    step s = .next { s with pc := s.pc + 1 }

/-- A few words written out from the opcode map (R62) and the operand classes (R54), one per family. -/
def Obligations.HandEncodedWordsDecode : Prop :=
  decodeWords 0x0000 1 2 3 = .halt ∧
  decodeWords 0x0001 0x8000 0x0005 9 = .set (.reg 0) (.lit 5) ∧
  decodeWords 0x0003 0x8001 7 7 = .pop (.reg 1) ∧
  decodeWords 0x0005 0x8007 0x8002 0x7FFF = .gt (.reg 7) (.reg 2) (.lit 32767) ∧
  decodeWords 0x0007 0x8003 0x0064 0 = .jt (.reg 3) (.lit 100) ∧
  decodeWords 0x000B 0x0005 0x8008 0xFFFF = .mod (.lit 5) (.invalid 0x8008) (.invalid 0xFFFF) ∧
  decodeWords 0x0010 0x8004 0x0001 0 = .wmem (.reg 4) (.lit 1) ∧
  decodeWords 0x0011 0x0028 0 0 = .call (.lit 40) ∧
  decodeWords 0x0014 0x8006 0 0 = .inp (.reg 6) ∧
  decodeWords 0x8000 1 2 3 = .noop 0x8000

/-- R55, R56 on raw words: what `val` and `dst` answer for every operand word, and what their faults record. -/
def Obligations.OperandWordsResolve : Prop :=
  ∀ (s : State) (w : Word),
    (w.toNat ≤ 32767 → s.val (decodeOperand w) = .ok w) ∧
    (∀ r : RegIndex, w.toNat = 32768 + r.val → s.val (decodeOperand w) = .ok s.regs[r]) ∧
    (32776 ≤ w.toNat → s.val (decodeOperand w) = .error { cause := .invalidOperand, info := w.toNat }) ∧
    (∀ r : RegIndex, w.toNat = 32768 + r.val → dst (decodeOperand w) = .ok r) ∧
    (w.toNat ≤ 32767 ∨ 32776 ≤ w.toNat → dst (decodeOperand w) = .error { cause := .invalidDestination, info := w.toNat })

/-! ### The step -/

/-- R52, R53: a running core with `pc` inside memory executes what the word at `pc` and the three words after it decode to; a word
beyond memory reads as 0, whatever the opcode. -/
def Obligations.StepExecutesTheFetchedWords : Prop :=
  ∀ s : State, s.runState = .running → s.pc.toNat < s.memSize →
    step s = exec
      (decodeWords (s.mem.read s.pc.toNat)
        (if s.pc.toNat + 1 < s.memSize then s.mem.read (s.pc.toNat + 1) else 0)
        (if s.pc.toNat + 2 < s.memSize then s.mem.read (s.pc.toNat + 2) else 0)
        (if s.pc.toNat + 3 < s.memSize then s.mem.read (s.pc.toNat + 3) else 0)) s

/-- When the words of a well-formed instruction stand in memory at `pc`, a running core's step is that instruction's effect
(R50, R52, R60). Nothing is added around it. -/
def Obligations.StepRunsTheInstructionAtPc : Prop :=
  ∀ (s : State) (i : Instr), i.wf = true → s.runState = .running →
    s.pc.toNat + (encode i).length ≤ s.memSize →
    (∀ k < (encode i).length, s.mem.read (s.pc.toNat + k) = (encode i).getD k 0) →
    step s = exec i s

/-- R51: a step that begins with `pc` at or past the end of memory stops with `ProgramExhausted` and changes nothing else. -/
def Obligations.StepPastMemoryExhaustsTheProgram : Prop :=
  ∀ s : State, s.runState = .running → s.memSize ≤ s.pc.toNat → step s = .next (s.stoppedWith .programExhausted)

/-- R22, R60: every running core has a next state, whatever it holds, and no other core has one. That `run_state` is
state is decision D7; that `step` then answers a fault
named `notRunning` is the model's choice (notes/assumptions/8.md). -/
def Obligations.StepHasANextStateExactlyWhenRunning : Prop :=
  ∀ s : State, (s.runState = .running → ∃ t, step s = .next t) ∧ (s.runState ≠ .running → step s = .fault .notRunning)

/-- The instruction of a table row's bits, stored by `withFetchWord`, is what the next step executes. `withFetchWord` is the model's
interface for placing a program from outside (notes/assumptions/10.md). -/
def Obligations.PlacedWordIsExecutedByTheNextStep : Prop :=
  ∀ (s : State) (nbits w : Nat), s.mem.wf → s.pc.toNat + 3 < s.memSize →
    ∃ i, decodeTableWord nbits w = some i ∧ step (s.withFetchWord nbits w) = exec i (s.withFetchWord nbits w)

/-- R69, R181: the trace record is of the instruction fetched at `pc`, which is the one the step executes, and there is none when the
step executes none. The spec keeps the hook out of the core (decision D17); it is modelled beside it (notes/assumptions/16.md). -/
def Obligations.TraceRecordsTheInstructionExecuted : Prop :=
  ∀ s : State,
    (s.runState = .running → s.pc.toNat < s.memSize →
      step s = exec s.fetchInstr s ∧
      s.traceRecord = some { ip := s.pc, mnemonic := s.fetchInstr.mnemonic,
                             operands := s.fetchInstr.operands.map renderOperand }) ∧
    (s.runState ≠ .running ∨ s.memSize ≤ s.pc.toNat → s.traceRecord = none)

/-- R60 with the instruction rules it calls: the machine's step, through decoder, dispatch and meanings, is the spec's pseudocode
over raw words (Machine/Reference.lean). Where the called rules rest on decisions (92_eei_decisions.md D4, D6, D8 to D14), so does this;
that the Input Source is a list with a last answer, a listed `Wait` answering one request, is the model's form of it on both sides
(notes/assumptions/5.md, 6.md). -/
def Obligations.StepIsThePseudocode : Prop :=
  ∀ s : State, s.runState = .running → step s = .next (Reference.stepState s)

/-! ### Machine control -/

/-- R80. That `pc` stays at the `halt` is decision D12. -/
def Obligations.HaltStopsTheRun : Prop :=
  encode .halt = [0] ∧ ∀ s : State, exec .halt s = .next (s.stoppedWith .halted)

/-- R81, for every opcode word of the no-op. -/
def Obligations.NoopOnlyAdvances : Prop :=
  ∀ op : Word, 21 ≤ op.toNat →
    encode (.noop op) = [op] ∧ ∀ s : State, exec (.noop op) s = .next { s with pc := s.pc + 1 }

/-! ### Register move and stack -/

/-- R85. That the register's 16 bits are copied whole is decision D4; the checks are decision D8. -/
def Obligations.SetCopiesTheValue : Prop := ThreeWordRule 1 .set (fun v => v)

/-- R86, R19. The finite stack and its fault are decision D6, the whole word decision D4, the operand check decision D8. -/
def Obligations.PushPutsTheValueOnTop : Prop :=
  ∀ a : Operand,
    encode (.push a) = [2, encodeOperand a] ∧
    ChecksFirst (.push a) [(.value, a)] ∧
    ∀ (s : State) (v : Word), s.valueOf a = some v →
      (s.params.stackDepth ≠ some s.stack.length →
        exec (.push a) s = .next { s with stack := v :: s.stack, pc := s.pc + 2 }) ∧
      (s.params.stackDepth = some s.stack.length →
        exec (.push a) s = .next (s.faultedWith .stackOverflow s.stack.length))

/-- R87, R20. That the destination is checked before the stack, and the untouched rest after a fault, are decisions D8 and D9; the
whole word is decision D4. -/
def Obligations.PopMovesTheTopIntoARegister : Prop :=
  ∀ d : Operand,
    encode (.pop d) = [3, encodeOperand d] ∧
    ChecksFirst (.pop d) [(.dest, d)] ∧
    ∀ (s : State) (r : RegIndex), destOf d = some r →
      (s.stack = [] → exec (.pop d) s = .next (s.faultedWith .stackUnderflow 0)) ∧
      (∀ (v : Word) (rest : List Word), s.stack = v :: rest →
        exec (.pop d) s = .next { s with stack := rest, regs := s.regs.set r v, pc := s.pc + 2 })

/-! ### Comparisons -/

/-- R95. That all 16 bits are compared is decision D11; the checks are decision D8. -/
def Obligations.EqWritesOneWhenEqual : Prop := FourWordRule 4 .eq (fun a b => if a = b then 1 else 0)

/-- R96: unsigned, strict, `a` on the left. That all 16 bits are compared is decision D11; the checks are decision D8. -/
def Obligations.GtWritesOneWhenGreater : Prop := FourWordRule 5 .gt (fun a b => if a > b then 1 else 0)

/-! ### Jumps -/

/-- R100, R103: the target is absolute and unchecked. That a fault leaves all but `run_state` as it was is decision D8
(notes/assumptions/13.md). -/
def Obligations.JmpLoadsPc : Prop :=
  ∀ a : Operand,
    encode (.jmp a) = [6, encodeOperand a] ∧
    ChecksFirst (.jmp a) [(.value, a)] ∧
    ∀ (s : State) (t : Word), s.valueOf a = some t → exec (.jmp a) s = .next { s with pc := t }

/-- R101. That the untaken target is checked, and the untouched rest after a fault, is decision D8, that all 16 bits are tested
decision D11. -/
def Obligations.JtJumpsWhenNonZero : Prop := BranchRule 7 .jt (fun c => c != 0)

/-- R102. That the untaken target is checked, and the untouched rest after a fault, is decision D8, that all 16 bits are tested
decision D11. -/
def Obligations.JfJumpsWhenZero : Prop := BranchRule 8 .jf (fun c => c == 0)

/-! ### Arithmetic and logic -/

/-- R110. The order of the checks and the untouched rest after a fault are decision D8 (notes/assumptions/13.md); the result for an
operand of 32768 or more is decision D11 (R116, notes/assumptions/11.md). -/
def Obligations.AddWrapsModulo32768 : Prop := FourWordRule 9 .add (fun a b => (a + b) % 32768)

/-- R111. The order of the checks and the untouched rest after a fault are decision D8 (notes/assumptions/13.md); the result for an
operand of 32768 or more is decision D11 (R116, notes/assumptions/11.md). -/
def Obligations.MultWrapsModulo32768 : Prop := FourWordRule 10 .mult (fun a b => a * b % 32768)

/-- R112. The fault of a zero divisor is decision D10, the last reduction and operands of 32768 or more decision D11,
the order of the checks decisions D8 and D9. -/
def Obligations.ModIsTheRemainderOrDivideByZero : Prop :=
  ∀ d a b : Operand,
    encode (.mod d a b) = [11, encodeOperand d, encodeOperand a, encodeOperand b] ∧
    ChecksFirst (.mod d a b) [(.dest, d), (.value, a), (.value, b)] ∧
    ∀ (s : State) (r : RegIndex) (va vb : Word), destOf d = some r → s.valueOf a = some va → s.valueOf b = some vb →
      (vb.toNat = 0 → exec (.mod d a b) s = .next (s.faultedWith .divideByZero 0)) ∧
      (vb.toNat ≠ 0 → exec (.mod d a b) s = .next
        { s with regs := s.regs.set r (BitVec.ofNat 16 (va.toNat % vb.toNat % 32768)), pc := s.pc + 4 })

/-- R113, as arithmetic: the low 15 bits of the bitwise AND. The mask on words with bit 15 set is decision D11, the
checks decision D8. -/
def Obligations.AndIsBitwiseOn15Bits : Prop := FourWordRule 12 .and (fun a b => (a &&& b) % 32768)

/-- R114, as arithmetic: the low 15 bits of the bitwise OR. The mask on words with bit 15 set is decision D11, the
checks decision D8. -/
def Obligations.OrIsBitwiseOn15Bits : Prop := FourWordRule 13 .or (fun a b => (a ||| b) % 32768)

/-- R115, in its arithmetic form: `32767 - (va mod 32768)`; its mask rests on no decision. The order of the two checks and the
untouched rest after a fault are decision D8 (notes/assumptions/13.md). -/
def Obligations.NotComplements15Bits : Prop := ThreeWordRule 14 .not (fun a => 32767 - a % 32768)

/-- R116, R117: on operand values of 32768 or more, which only decision D11 settles, the five operations other than `mod` are those
of a 15-bit ALU that ignores bit 15 of its inputs, and every ALU result is a 15-bit value. -/
def Obligations.AluIgnoresBit15ButInMod : Prop :=
  ∀ a b : Word,
    addResult a b = addResult (a &&& 0x7FFF) (b &&& 0x7FFF) ∧
    multResult a b = multResult (a &&& 0x7FFF) (b &&& 0x7FFF) ∧
    andResult a b = andResult (a &&& 0x7FFF) (b &&& 0x7FFF) ∧
    orResult a b = orResult (a &&& 0x7FFF) (b &&& 0x7FFF) ∧
    notResult a = notResult (a &&& 0x7FFF) ∧
    (addResult a b).toNat < 32768 ∧ (multResult a b).toNat < 32768 ∧ (modResult a b).toNat < 32768 ∧
    (andResult a b).toNat < 32768 ∧ (orResult a b).toNat < 32768 ∧ (notResult a).toNat < 32768

/-- Adding `32768 - k` subtracts `k` modulo 32768 (44_alu.md, the additive inverse of R110 and R117): after an `add` of `k` and an
`add` of `32768 - k` to the same register it holds its 15-bit value again, and only `pc` differs besides. For a register that holds
32768 or more this is decision D11 (notes/assumptions/11.md). -/
def Obligations.AddOfTheInverseUndoesAdd : Prop :=
  ∀ (s : State) (r : RegIndex) (k k' : Literal), 0 < k.toNat → k'.toNat = 32768 - k.toNat →
    ∃ t, exec (.add (.reg r) (.reg r) (.lit k)) s = .next t ∧
      exec (.add (.reg r) (.reg r) (.lit k')) t = .next
        { s with regs := s.regs.set r (BitVec.ofNat 16 (s.regs[r].toNat % 32768)), pc := s.pc + 8 }

/-! ### Load and store -/

/-- R130, R33. That the cell's 16 bits are copied whole is decision D4, the order of the checks decisions D8 and D9, memory that does
not grow decision D3. -/
def Obligations.RmemLoadsTheCell : Prop :=
  ∀ d a : Operand,
    encode (.rmem d a) = [15, encodeOperand d, encodeOperand a] ∧
    ChecksFirst (.rmem d a) [(.dest, d), (.value, a)] ∧
    ∀ (s : State) (r : RegIndex) (addr : Word), destOf d = some r → s.valueOf a = some addr →
      (addr.toNat < s.memSize → exec (.rmem d a) s = .next
        { s with regs := s.regs.set r (s.mem.read addr.toNat), pc := s.pc + 3 }) ∧
      (s.memSize ≤ addr.toNat → exec (.rmem d a) s = .next (s.faultedWith .memoryOutOfBounds addr.toNat))

/-- R131, R34: the cell at the resolved address, and no other, reads as the stored word afterwards. Memory is in its canonical form,
which every step keeps (`InvariantIsKeptByEveryStep`). That all 16 bits are copied is decision D4 (notes/assumptions/11.md), the order
of the checks and the untouched rest after a fault decisions D8 and D9 (notes/assumptions/13.md), memory that does not grow D3. -/
def Obligations.WmemStoresOneCell : Prop :=
  ∀ a b : Operand,
    encode (.wmem a b) = [16, encodeOperand a, encodeOperand b] ∧
    ChecksFirst (.wmem a b) [(.value, a), (.value, b)] ∧
    ∀ (s : State) (addr v : Word), s.mem.wf → s.valueOf a = some addr → s.valueOf b = some v →
      (addr.toNat < s.memSize → ∃ m : Memory, exec (.wmem a b) s = .next { s with mem := m, pc := s.pc + 3 } ∧
        m.wf ∧ m.read addr.toNat = v ∧ ∀ k : Nat, k ≠ addr.toNat → m.read k = s.mem.read k) ∧
      (s.memSize ≤ addr.toNat → exec (.wmem a b) s = .next (s.faultedWith .memoryOutOfBounds addr.toNat))

/-- R46: a word stored at the address executed next is the opcode word of the next step. -/
def Obligations.StoredWordIsFetchedByTheNextStep : Prop :=
  ∀ (s : State) (a b : Operand) (v : Word), s.mem.wf → s.runState = .running → s.pc.toNat + 3 < s.memSize →
    s.fetchInstr = .wmem a b → s.valueOf a = some (s.pc + 3) → s.valueOf b = some v →
    ∃ t, step s = .next t ∧
      step t = exec (decodeWords v (t.fetchOperand (s.pc.toNat + 4)) (t.fetchOperand (s.pc.toNat + 5))
        (t.fetchOperand (s.pc.toNat + 6))) t

/-! ### Subroutines -/

/-- R140, R19. The finite stack and its fault are decision D6, the checks decision D8. -/
def Obligations.CallPushesTheReturnAddress : Prop :=
  ∀ a : Operand,
    encode (.call a) = [17, encodeOperand a] ∧
    ChecksFirst (.call a) [(.value, a)] ∧
    ∀ (s : State) (t : Word), s.valueOf a = some t →
      (s.params.stackDepth ≠ some s.stack.length →
        exec (.call a) s = .next { s with stack := (s.pc + 2) :: s.stack, pc := t }) ∧
      (s.params.stackDepth = some s.stack.length →
        exec (.call a) s = .next (s.faultedWith .stackOverflow s.stack.length))

/-- R141. That `pc` stays at the `ret` when the run stops is decision D12. -/
def Obligations.RetPopsPcOrHalts : Prop :=
  encode .ret = [18] ∧
  ∀ s : State,
    (s.stack = [] → exec .ret s = .next (s.stoppedWith .halted)) ∧
    (∀ (t : Word) (rest : List Word), s.stack = t :: rest → exec .ret s = .next { s with stack := rest, pc := t })

/-- The round trip of R142: a `call` at address `A` and a `ret` at its target, executed at once, resume at `A + 2` with everything
else as it was. The target operand is any value word. -/
def Obligations.RetResumesAfterTheCall : Prop :=
  ∀ (s : State) (w target : Word), s.runState = .running → s.pc.toNat + 1 < s.memSize →
    s.mem.read s.pc.toNat = 17 → s.mem.read (s.pc.toNat + 1) = w → s.valueOf (decodeOperand w) = some target →
    target.toNat < s.memSize → s.mem.read target.toNat = 18 → s.params.stackDepth ≠ some s.stack.length →
    ∃ t, step s = .next t ∧ t.pc = target ∧ step t = .next { s with pc := s.pc + 2 }

/-- The stack discipline of R20: `push a; push b; pop p; pop q` leaves the second value in `p`, the first in `q`, and the stack as it
was. -/
def Obligations.PopsReturnPushesInReverseOrder : Prop :=
  ∀ (s : State) (a b : Operand) (va vb : Word) (p q : RegIndex), s.params.stackDepth = none →
    s.valueOf a = some va → s.valueOf b = some vb →
    ∃ t1 t2 t3, exec (.push a) s = .next t1 ∧ exec (.push b) t1 = .next t2 ∧ exec (.pop (.reg p)) t2 = .next t3 ∧
      exec (.pop (.reg q)) t3 = .next { s with regs := (s.regs.set p vb).set q va, pc := s.pc + 8 }

/-! ### Character input and output -/

/-- R150, R151: bits 7..0 of the value are appended to the output stream. That the sink always accepts, so that `out` always completes,
is decision D13 (notes/assumptions/7.md); that a fault leaves the rest as it was is decision D8 (notes/assumptions/13.md). -/
def Obligations.OutAppendsOneCharacter : Prop :=
  ∀ a : Operand,
    encode (.out a) = [19, encodeOperand a] ∧
    ChecksFirst (.out a) [(.value, a)] ∧
    ∀ (s : State) (v : Word), s.valueOf a = some v →
      exec (.out a) s = .next { s with output := s.output ++ [BitVec.ofNat 8 (v.toNat % 256)], pc := s.pc + 2 }

/-- R153, R155. That the destination is checked before the source is asked is decision D14, that `pc` stays on `End` decision D12;
the Input Source as a list with a last answer is the model's form of it (notes/assumptions/5.md). -/
def Obligations.InTakesOneCharacterOrWaitsOrStops : Prop :=
  ∀ d : Operand,
    encode (.inp d) = [20, encodeOperand d] ∧
    ChecksFirst (.inp d) [(.dest, d)] ∧
    ∀ (s : State) (r : RegIndex), destOf d = some r →
      (∀ (c : Byte) (rest : List InputEvent), s.input = .char c :: rest → exec (.inp d) s = .next
        { s with input := rest, regs := s.regs.set r (BitVec.ofNat 16 c.toNat), pc := s.pc + 2 }) ∧
      (s.input = [] → s.inputTail = .waits → exec (.inp d) s = .next s) ∧
      (s.input = [] → s.inputTail = .ends → exec (.inp d) s = .next (s.stoppedWith .inputExhausted))

/-- R153, R155: a request answered by a listed `Wait`, whatever is listed after it, leaves the core as it is; only the source's own
list moves on, and the same `in` tried again gets the next answer: a character, another `Wait`, or, the list used up, the lasting
answer. That a listed `Wait` answers one request is the model's choice (notes/assumptions/6.md), that `pc` stays on `End` decision D12. -/
def Obligations.ListedWaitHoldsTheCoreOnce : Prop :=
  ∀ (s : State) (d : Operand) (r : RegIndex) (rest : List InputEvent), destOf d = some r → s.input = .notYet :: rest →
    exec (.inp d) s = .next { s with input := rest } ∧
    (∀ (c : Byte) (more : List InputEvent), rest = .char c :: more → exec (.inp d) { s with input := rest } = .next
      { s with input := more, regs := s.regs.set r (BitVec.ofNat 16 c.toNat), pc := s.pc + 2 }) ∧
    (∀ more : List InputEvent, rest = .notYet :: more →
      exec (.inp d) { s with input := rest } = .next { s with input := more }) ∧
    (rest = [] → s.inputTail = .waits → exec (.inp d) { s with input := rest } = .next { s with input := rest }) ∧
    (rest = [] → s.inputTail = .ends → exec (.inp d) { s with input := rest } = .next
      { s with input := rest, runState := .stopped .inputExhausted })

/-! ### Whole-machine rules -/

/-- R15: where `pc` stands after an instruction. The run going on, it is the table's entry; the run ended, it is
unchanged, which is decision D12 for a stop (notes/assumptions/14.md) and D8 for a fault (notes/assumptions/13.md). -/
def Obligations.PcFollowsTheAdvanceTable : Prop :=
  ∀ (i : Instr) (s t : State), s.runState = .running → exec i s = .next t →
    (t.runState ≠ .running → t.pc = s.pc) ∧
    (t.runState = .running →
      match i with
      | .halt => False
      | .jmp a => s.valueOf a = some t.pc
      | .jt a b => ∃ c, s.valueOf a = some c ∧ (c ≠ 0 → s.valueOf b = some t.pc) ∧ (c = 0 → t.pc = s.pc + 3)
      | .jf a b => ∃ c, s.valueOf a = some c ∧ (c = 0 → s.valueOf b = some t.pc) ∧ (c ≠ 0 → t.pc = s.pc + 3)
      | .call a => s.valueOf a = some t.pc ∧ t.stack = (s.pc + 2) :: s.stack
      | .ret => s.stack = t.pc :: t.stack
      | .inp _ => (∃ c, s.input = .char c :: t.input ∧ t.pc = s.pc + 2) ∨ ((∀ c rest, s.input ≠ .char c :: rest) ∧ t.pc = s.pc)
      | .set _ _ | .not _ _ | .rmem _ _ | .wmem _ _ => t.pc = s.pc + 3
      | .push _ | .pop _ | .out _ => t.pc = s.pc + 2
      | .eq _ _ _ | .gt _ _ _ | .add _ _ _ | .mult _ _ _ | .mod _ _ _ | .and _ _ _ | .or _ _ _ => t.pc = s.pc + 4
      | .noop _ => t.pc = s.pc + 1)

/-- The program counter never wraps (10_state.md, the inference marked at R16): after a step that goes on and is no jump, call or
return, `pc` has grown as a number, by at most 4. -/
def Obligations.FixedAdvanceNeverWraps : Prop :=
  ∀ s t : State, step s = .next t → t.runState = .running →
    s.wordAt 0 ∉ [6, 7, 8, 17, 18] → s.pc.toNat ≤ t.pc.toNat ∧ t.pc.toNat ≤ s.pc.toNat + 4

/-- R12: an instruction that changes a register is one of the 12 with a destination word, and that word names the register. -/
def Obligations.OnlyTheDestinationRegisterChanges : Prop :=
  ∀ (i : Instr) (s t : State) (r : RegIndex), exec i s = .next t → t.regs[r] ≠ s.regs[r] →
    i.opcode.toNat ∈ destOpcodes ∧ i.operands.head? = some (.reg r)

/-- R12, R21, R34: only `wmem` changes a cell of memory, the one at its resolved address. -/
def Obligations.OnlyWmemChangesMemory : Prop :=
  ∀ (i : Instr) (s t : State) (k : Nat), s.mem.wf → exec i s = .next t → t.mem.read k ≠ s.mem.read k →
    ∃ (a b : Operand) (addr : Word), i = .wmem a b ∧ s.valueOf a = some addr ∧ k = addr.toNat ∧
      s.valueOf b = some (t.mem.read k) ∧ k < s.memSize

/-- R18: the stack is reached by `push`, `pop`, `call` and `ret` alone, always at the top, one entry at a time. -/
def Obligations.OnlyFourInstructionsReachTheStack : Prop :=
  ∀ (i : Instr) (s t : State), exec i s = .next t → t.stack ≠ s.stack →
    (∃ a v, i = .push a ∧ s.valueOf a = some v ∧ t.stack = v :: s.stack) ∨
    (∃ a, i = .call a ∧ t.stack = (s.pc + 2) :: s.stack) ∨
    (∃ r v, i = .pop (.reg r) ∧ s.stack = v :: t.stack ∧ t.regs[r] = v) ∨
    (i = .ret ∧ s.stack = t.pc :: t.stack)

/-- R48: one step appends at most one character to the output stream, by `out`, and takes at most the next answer of the Input
Source, by `in`. -/
def Obligations.ChannelsMoveInProgramOrder : Prop :=
  ∀ (i : Instr) (s t : State), exec i s = .next t →
    (t.output = s.output ∨ ∃ a b, i = .out a ∧ t.output = s.output ++ [b]) ∧
    (t.input = s.input ∨ ∃ d e, i = .inp d ∧ s.input = e :: t.input) ∧
    t.inputTail = s.inputTail

/-- 47_io.md R151, 10_state.md R24: what has been emitted never influences what is executed. From two states that differ only in their
output streams the same step is taken, and the same characters are appended. -/
def Obligations.OutputNeverInfluencesTheCore : Prop :=
  ∀ (s t : State) (other : List Byte), step s = .next t →
    ∃ emitted : List Byte, t.output = s.output ++ emitted ∧
      step { s with output := other } = .next { t with output := other ++ emitted }

/-! ### The end of a run -/

/-- R161, R164: a step that ends the run writes `run_state` and nothing else; a fault records the `pc` of the faulting instruction. That
the rest is left intact is decision D8 for a fault and D12 for a stop. -/
def Obligations.EndingStepWritesRunStateOnly : Prop :=
  ∀ s t : State, step s = .next t → t.runState ≠ .running →
    t = { s with runState := t.runState } ∧
    ∀ (cause : FaultCause) (atPc : Word) (info : Nat), t.runState = .faulted cause atPc info → atPc = s.pc

/-- R160, R163, R165: `run_state` tells the truth about the state the run ended in. A stop has one of the four terminal conditions; a
fault has its row of the table of causes, its recorded word being the first bad one. The order of checks is decisions D8 and D9. -/
def Obligations.EndOfRunIsExplained : Prop := ∀ s t : State, step s = .next t → t.EndExplained

/-- R166: an ended core reaches no other state. That the end of a run is state is decision D7. -/
def Obligations.EndedCoreReachesOnlyItself : Prop :=
  ∀ s t : State, s.ended = true → Reaches s t → t = s

/-- R61, R100: a `jmp` to its own address takes a step that leads to the same state, and so any number of steps. -/
def Obligations.JumpToSelfRunsForEver : Prop :=
  ∀ s : State, s.runState = .running → s.pc.toNat + 1 < s.memSize →
    s.mem.read s.pc.toNat = 6 → s.mem.read (s.pc.toNat + 1) = s.pc →
    step s = .next s ∧ ∀ n : Nat, Host.Core.run Sys2Proof.core n s = .next s

/-- R153, R182: a core at an `in` whose source only waits takes a step that leads to the same state, and so any number of steps. That
the source is a list with a lasting answer is the model's form of it (notes/assumptions/5.md). -/
def Obligations.HeldCoreStaysRunning : Prop :=
  ∀ (s : State) (r : RegIndex), s.runState = .running → s.pc.toNat < s.memSize →
    s.fetchInstr = .inp (.reg r) → s.input = [] → s.inputTail = .waits →
    step s = .next s ∧ ∀ n : Nat, Host.Core.run Sys2Proof.core n s = .next s

/-- The codes of 92_eei_decisions.md D15: bit 4 is set exactly in a fault's code, the code 0 is `RUNNING`'s alone, and the code tells
the reason or the cause. -/
def Obligations.RunStateCodesTellThemApart : Prop :=
  ∀ r q : RunState,
    (r.code.getLsbD 4 = true ↔ ∃ cause atPc info, r = .faulted cause atPc info) ∧
    (r.code = 0 ↔ r = .running) ∧
    (r.code = q.code → (r = q ∨ ∃ cause atPc info atPc' info', r = .faulted cause atPc info ∧ q = .faulted cause atPc' info'))

/-! ### Reset and invariant -/

/-- R25, R190, R38: reset for any image that fits: registers and `pc` 0, the stack empty, the image from address 0 with zeros above it,
running, no output, and the invariant; an image that does not fit is refused by name. The reset of `pc` is decision D5, of the stack
D6, of the cells above the image D2, and the refusal by name is the model's (notes/assumptions/19.md). -/
def Obligations.BootGivesTheResetState : Prop :=
  ∀ (params : Params) (image : List Word) (input : List InputEvent) (tail : InputTail),
    (image.length ≤ params.memSize.val → ∃ s, boot params image input tail = .ok s ∧
      (∀ r : RegIndex, s.regs[r] = 0) ∧ s.pc = 0 ∧ s.stack = [] ∧ s.runState = .running ∧ s.output = [] ∧
      s.params = params ∧ s.input = input ∧ s.inputTail = tail ∧
      (∀ k < image.length, s.mem.read k = image.getD k 0) ∧ (∀ k : Nat, image.length ≤ k → s.mem.read k = 0) ∧ s.Inv) ∧
    (params.memSize.val < image.length →
      boot params image input tail = .error (.imageTooLong image.length params.memSize.val))

/-- `State.reset` is reset for the empty image and the default parameters, with an Input Source that only answers `End`. The defaults
and the source are the model's choice (notes/assumptions/3.md, 4.md, 5.md). -/
def Obligations.ResetIsBootOfTheEmptyImage : Prop :=
  boot Params.default [] [] .ends = .ok State.reset ∧ State.reset.memSize = 32768 ∧ State.reset.params.stackDepth = none

/-- R38: the image words of a file's bytes, low byte first, and the refusal of an odd length. -/
def Obligations.ImageBytesAreLittleEndian : Prop :=
  ∀ bytes : List Byte,
    (bytes.length % 2 = 1 → wordsOfBytes bytes = .error .oddTrailingByte) ∧
    (bytes.length % 2 = 0 → ∃ words, wordsOfBytes bytes = .ok words ∧ 2 * words.length = bytes.length ∧
      ∀ k < words.length, (words.getD k 0).toNat = (bytes.getD (2 * k) 0).toNat + 256 * (bytes.getD (2 * k + 1) 0).toNat)

/-- From every state that meets the invariant, reachable or not, every step keeps it: memory stays canonical and inside `MEMSIZE`
(R31, R32), the stack inside a finite `STACK_DEPTH` (R19, decision D6); and the two bounds themselves do not move (R32). -/
def Obligations.InvariantIsKeptByEveryStep : Prop :=
  ∀ s t : State, s.Inv → step s = .next t → t.Inv ∧ t.params = s.params

/-- The invariant holds right after reset. -/
def Obligations.InvariantHoldsAtReset : Prop := State.reset.Inv
end

