-- ==== Sys2Proof/Laws/State.lean ====
section
/-! SUPPORT. What each named update does to each field of State: one lemma per field per update. -/

namespace Sys2Proof.Machine

/-! ### writeReg -/

@[simp] theorem State.writeReg_regs (s : State) (r : RegIndex) (v : Word) : (s.writeReg r v).regs = s.regs.set r v := rfl

@[simp] theorem State.writeReg_pc (s : State) (r : RegIndex) (v : Word) : (s.writeReg r v).pc = s.pc := rfl

@[simp] theorem State.writeReg_stack (s : State) (r : RegIndex) (v : Word) : (s.writeReg r v).stack = s.stack := rfl

@[simp] theorem State.writeReg_mem (s : State) (r : RegIndex) (v : Word) : (s.writeReg r v).mem = s.mem := rfl

@[simp] theorem State.writeReg_runState (s : State) (r : RegIndex) (v : Word) : (s.writeReg r v).runState = s.runState := rfl

@[simp] theorem State.writeReg_params (s : State) (r : RegIndex) (v : Word) : (s.writeReg r v).params = s.params := rfl

@[simp] theorem State.writeReg_input (s : State) (r : RegIndex) (v : Word) : (s.writeReg r v).input = s.input := rfl

@[simp] theorem State.writeReg_inputTail (s : State) (r : RegIndex) (v : Word) : (s.writeReg r v).inputTail = s.inputTail := rfl

@[simp] theorem State.writeReg_output (s : State) (r : RegIndex) (v : Word) : (s.writeReg r v).output = s.output := rfl

/-! ### advance -/

@[simp] theorem State.advance_regs (s : State) (n : Nat) : (s.advance n).regs = s.regs := rfl

@[simp] theorem State.advance_pc (s : State) (n : Nat) : (s.advance n).pc = s.pc + BitVec.ofNat 16 n := rfl

@[simp] theorem State.advance_stack (s : State) (n : Nat) : (s.advance n).stack = s.stack := rfl

@[simp] theorem State.advance_mem (s : State) (n : Nat) : (s.advance n).mem = s.mem := rfl

@[simp] theorem State.advance_runState (s : State) (n : Nat) : (s.advance n).runState = s.runState := rfl

@[simp] theorem State.advance_params (s : State) (n : Nat) : (s.advance n).params = s.params := rfl

@[simp] theorem State.advance_input (s : State) (n : Nat) : (s.advance n).input = s.input := rfl

@[simp] theorem State.advance_inputTail (s : State) (n : Nat) : (s.advance n).inputTail = s.inputTail := rfl

@[simp] theorem State.advance_output (s : State) (n : Nat) : (s.advance n).output = s.output := rfl

/-! ### jump -/

@[simp] theorem State.jump_regs (s : State) (target : Word) : (s.jump target).regs = s.regs := rfl

@[simp] theorem State.jump_pc (s : State) (target : Word) : (s.jump target).pc = target := rfl

@[simp] theorem State.jump_stack (s : State) (target : Word) : (s.jump target).stack = s.stack := rfl

@[simp] theorem State.jump_mem (s : State) (target : Word) : (s.jump target).mem = s.mem := rfl

@[simp] theorem State.jump_runState (s : State) (target : Word) : (s.jump target).runState = s.runState := rfl

@[simp] theorem State.jump_params (s : State) (target : Word) : (s.jump target).params = s.params := rfl

@[simp] theorem State.jump_input (s : State) (target : Word) : (s.jump target).input = s.input := rfl

@[simp] theorem State.jump_inputTail (s : State) (target : Word) : (s.jump target).inputTail = s.inputTail := rfl

@[simp] theorem State.jump_output (s : State) (target : Word) : (s.jump target).output = s.output := rfl

/-! ### raise -/

@[simp] theorem State.raise_regs (s : State) (e : Raised) : (s.raise e).regs = s.regs := rfl

@[simp] theorem State.raise_pc (s : State) (e : Raised) : (s.raise e).pc = s.pc := rfl

@[simp] theorem State.raise_stack (s : State) (e : Raised) : (s.raise e).stack = s.stack := rfl

@[simp] theorem State.raise_mem (s : State) (e : Raised) : (s.raise e).mem = s.mem := rfl

@[simp] theorem State.raise_runState (s : State) (e : Raised) : (s.raise e).runState = .faulted e.cause s.pc e.info := rfl

@[simp] theorem State.raise_params (s : State) (e : Raised) : (s.raise e).params = s.params := rfl

@[simp] theorem State.raise_input (s : State) (e : Raised) : (s.raise e).input = s.input := rfl

@[simp] theorem State.raise_inputTail (s : State) (e : Raised) : (s.raise e).inputTail = s.inputTail := rfl

@[simp] theorem State.raise_output (s : State) (e : Raised) : (s.raise e).output = s.output := rfl

/-! ### stop -/

@[simp] theorem State.stop_regs (s : State) (reason : StopReason) : (s.stop reason).regs = s.regs := rfl

@[simp] theorem State.stop_pc (s : State) (reason : StopReason) : (s.stop reason).pc = s.pc := rfl

@[simp] theorem State.stop_stack (s : State) (reason : StopReason) : (s.stop reason).stack = s.stack := rfl

@[simp] theorem State.stop_mem (s : State) (reason : StopReason) : (s.stop reason).mem = s.mem := rfl

@[simp] theorem State.stop_runState (s : State) (reason : StopReason) : (s.stop reason).runState = .stopped reason := rfl

@[simp] theorem State.stop_params (s : State) (reason : StopReason) : (s.stop reason).params = s.params := rfl

@[simp] theorem State.stop_input (s : State) (reason : StopReason) : (s.stop reason).input = s.input := rfl

@[simp] theorem State.stop_inputTail (s : State) (reason : StopReason) : (s.stop reason).inputTail = s.inputTail := rfl

@[simp] theorem State.stop_output (s : State) (reason : StopReason) : (s.stop reason).output = s.output := rfl

/-! ### outEmit -/

@[simp] theorem State.outEmit_regs (s : State) (b : Byte) : (s.outEmit b).regs = s.regs := rfl

@[simp] theorem State.outEmit_pc (s : State) (b : Byte) : (s.outEmit b).pc = s.pc := rfl

@[simp] theorem State.outEmit_stack (s : State) (b : Byte) : (s.outEmit b).stack = s.stack := rfl

@[simp] theorem State.outEmit_mem (s : State) (b : Byte) : (s.outEmit b).mem = s.mem := rfl

@[simp] theorem State.outEmit_runState (s : State) (b : Byte) : (s.outEmit b).runState = s.runState := rfl

@[simp] theorem State.outEmit_params (s : State) (b : Byte) : (s.outEmit b).params = s.params := rfl

@[simp] theorem State.outEmit_input (s : State) (b : Byte) : (s.outEmit b).input = s.input := rfl

@[simp] theorem State.outEmit_inputTail (s : State) (b : Byte) : (s.outEmit b).inputTail = s.inputTail := rfl

@[simp] theorem State.outEmit_output (s : State) (b : Byte) : (s.outEmit b).output = s.output ++ [b] := rfl

/-! ### faultedWith -/

@[simp] theorem State.faultedWith_regs (s : State) (cause : FaultCause) (info : Nat) : (s.faultedWith cause info).regs = s.regs := rfl

@[simp] theorem State.faultedWith_pc (s : State) (cause : FaultCause) (info : Nat) : (s.faultedWith cause info).pc = s.pc := rfl

@[simp] theorem State.faultedWith_stack (s : State) (cause : FaultCause) (info : Nat) : (s.faultedWith cause info).stack = s.stack := rfl

@[simp] theorem State.faultedWith_mem (s : State) (cause : FaultCause) (info : Nat) : (s.faultedWith cause info).mem = s.mem := rfl

@[simp] theorem State.faultedWith_runState (s : State) (cause : FaultCause) (info : Nat) : (s.faultedWith cause info).runState = .faulted cause s.pc info := rfl

@[simp] theorem State.faultedWith_params (s : State) (cause : FaultCause) (info : Nat) : (s.faultedWith cause info).params = s.params := rfl

@[simp] theorem State.faultedWith_input (s : State) (cause : FaultCause) (info : Nat) : (s.faultedWith cause info).input = s.input := rfl

@[simp] theorem State.faultedWith_inputTail (s : State) (cause : FaultCause) (info : Nat) : (s.faultedWith cause info).inputTail = s.inputTail := rfl

@[simp] theorem State.faultedWith_output (s : State) (cause : FaultCause) (info : Nat) : (s.faultedWith cause info).output = s.output := rfl

/-! ### stoppedWith -/

@[simp] theorem State.stoppedWith_regs (s : State) (reason : StopReason) : (s.stoppedWith reason).regs = s.regs := rfl

@[simp] theorem State.stoppedWith_pc (s : State) (reason : StopReason) : (s.stoppedWith reason).pc = s.pc := rfl

@[simp] theorem State.stoppedWith_stack (s : State) (reason : StopReason) : (s.stoppedWith reason).stack = s.stack := rfl

@[simp] theorem State.stoppedWith_mem (s : State) (reason : StopReason) : (s.stoppedWith reason).mem = s.mem := rfl

@[simp] theorem State.stoppedWith_runState (s : State) (reason : StopReason) : (s.stoppedWith reason).runState = .stopped reason := rfl

@[simp] theorem State.stoppedWith_params (s : State) (reason : StopReason) : (s.stoppedWith reason).params = s.params := rfl

@[simp] theorem State.stoppedWith_input (s : State) (reason : StopReason) : (s.stoppedWith reason).input = s.input := rfl

@[simp] theorem State.stoppedWith_inputTail (s : State) (reason : StopReason) : (s.stoppedWith reason).inputTail = s.inputTail := rfl

@[simp] theorem State.stoppedWith_output (s : State) (reason : StopReason) : (s.stoppedWith reason).output = s.output := rfl

end Sys2Proof.Machine
end

