-- ==== Sys2Proof/Laws/Memory.lean ====
section
/-! SUPPORT. Memory: what a read gives after a write, and that every operation keeps the canonical form and the bound. -/

namespace Sys2Proof.Machine

theorem Memory.read_entry (a : Nat) (v : Word) (rest : Memory) (b : Nat) (h : rest.read a = Memory.unlisted) :
    (Memory.entry a v rest).read b = if b = a then v else rest.read b := by
  unfold Memory.entry
  split
  · rename_i hv
    split
    · subst_vars; exact h
    · rfl
  · rfl

/-- A memory whose listed addresses are all above `a` reads as unlisted at `a`. -/
theorem Memory.read_of_lt_all {m : Memory} {a : Nat} (h : ∀ c ∈ m, a < c.1) : m.read a = Memory.unlisted := by
  induction m with
  | nil => rfl
  | cons c rest ih =>
    obtain ⟨b, w⟩ := c
    have hb : a < b := h (b, w) (by simp)
    simp only [Memory.read]
    rw [if_neg (by omega)]
    exact ih (fun c hc => h c (by simp [hc]))

/-- A read after a write to a canonical memory: the word written there, every other address as before. -/
theorem Memory.read_write {m : Memory} (h : m.wf) (a : Nat) (v : Word) (b : Nat) :
    (m.write a v).read b = if b = a then v else m.read b := by
  induction m with
  | nil =>
    rw [Memory.write, Memory.read_entry a v [] b rfl]
  | cons c rest ih =>
    obtain ⟨k, w⟩ := c
    obtain ⟨hs, hz⟩ := h
    rw [List.pairwise_cons] at hs
    have hrest : Memory.wf rest := ⟨hs.2, fun c hc => hz c (by simp [hc])⟩
    unfold Memory.write
    split
    · rename_i hak
      refine Memory.read_entry a v _ b (Memory.read_of_lt_all ?_)
      intro c hc
      rcases List.mem_cons.mp hc with rfl | hc
      · exact hak
      · exact Nat.lt_trans hak (hs.1 c hc)
    · split
      · rename_i _ hak
        subst hak
        rw [Memory.read_entry a v rest b (Memory.read_of_lt_all hs.1)]
        simp only [Memory.read]
        split <;> rfl
      · rename_i _ hak
        simp only [Memory.read, ih hrest]
        split
        · rename_i hb
          rw [if_neg (by omega)]
        · rfl

theorem Memory.mem_entry {a : Nat} {v : Word} {rest : Memory} {c : Nat × Word} (h : c ∈ Memory.entry a v rest) :
    (c = (a, v) ∧ v ≠ Memory.unlisted) ∨ c ∈ rest := by
  unfold Memory.entry at h
  split at h
  · exact .inr h
  · rcases List.mem_cons.mp h with rfl | h
    · exact .inl ⟨rfl, ‹_›⟩
    · exact .inr h

/-- A written memory lists the address written or addresses that were listed. -/
theorem Memory.mem_write {m : Memory} {a : Nat} {v : Word} {c : Nat × Word} (h : c ∈ m.write a v) :
    (c = (a, v) ∧ v ≠ Memory.unlisted) ∨ c ∈ m := by
  induction m with
  | nil => exact Memory.mem_entry h
  | cons d rest ih =>
    obtain ⟨k, w⟩ := d
    unfold Memory.write at h
    split at h
    · exact Memory.mem_entry h
    · split at h
      · rcases Memory.mem_entry h with h | h
        · exact .inl h
        · exact .inr (by simp [h])
      · rcases List.mem_cons.mp h with rfl | h
        · exact .inr (by simp)
        · rcases ih h with h | h
          · exact .inl h
          · exact .inr (by simp [h])

theorem Memory.pairwise_entry {a : Nat} {v : Word} {rest : Memory} (hs : rest.Pairwise (fun c d => c.1 < d.1))
    (h : ∀ c ∈ rest, a < c.1) : (Memory.entry a v rest).Pairwise (fun c d => c.1 < d.1) := by
  unfold Memory.entry
  split
  · exact hs
  · exact List.pairwise_cons.mpr ⟨h, hs⟩

/-- A write keeps the canonical form. -/
theorem Memory.write_wf {m : Memory} (h : m.wf) (a : Nat) (v : Word) : (m.write a v).wf := by
  obtain ⟨hs, hz⟩ := h
  constructor
  · clear hz
    induction m with
    | nil => exact Memory.pairwise_entry .nil (by simp)
    | cons d rest ih =>
      obtain ⟨k, w⟩ := d
      have hs' := List.pairwise_cons.mp hs
      unfold Memory.write
      split
      · rename_i hak
        refine Memory.pairwise_entry hs ?_
        intro c hc
        rcases List.mem_cons.mp hc with rfl | hc
        · exact hak
        · exact Nat.lt_trans hak (hs'.1 c hc)
      · split
        · rename_i _ hak
          subst hak
          exact Memory.pairwise_entry hs'.2 hs'.1
        · refine List.pairwise_cons.mpr ⟨?_, ih hs'.2⟩
          intro c hc
          rcases Memory.mem_write hc with ⟨rfl, _⟩ | hc
          · simp only; omega
          · exact hs'.1 c hc
  · intro c hc
    rcases Memory.mem_write hc with ⟨rfl, hv⟩ | hc
    · exact hv
    · exact hz c hc

/-- A write below the bound keeps every listed address below it. -/
theorem Memory.write_within {m : Memory} {size a : Nat} (h : m.within size) (ha : a < size) (v : Word) :
    (m.write a v).within size := by
  intro c hc
  rcases Memory.mem_write hc with ⟨rfl, _⟩ | hc
  · exact ha
  · exact h c hc

theorem Memory.writeList_wf {m : Memory} (h : m.wf) (a : Nat) (ws : List Word) : (m.writeList a ws).wf := by
  induction ws generalizing m a with
  | nil => exact h
  | cons w ws ih => exact ih (Memory.write_wf h a w) (a + 1)

theorem Memory.writeList_within {m : Memory} {size a : Nat} (h : m.within size) (ws : List Word)
    (ha : a + ws.length ≤ size) : (m.writeList a ws).within size := by
  induction ws generalizing m a with
  | nil => exact h
  | cons w ws ih =>
    simp only [List.length_cons] at ha
    exact ih (Memory.write_within h (by omega) w) (by omega)

/-- A read after a list of words has been written from `a` upward. -/
theorem Memory.read_writeList {m : Memory} (h : m.wf) (a : Nat) (ws : List Word) (b : Nat) :
    (m.writeList a ws).read b = if a ≤ b ∧ b < a + ws.length then ws.getD (b - a) 0 else m.read b := by
  induction ws generalizing m a with
  | nil =>
    rw [if_neg (by simp only [List.length_nil]; omega)]
    rfl
  | cons w ws ih =>
    rw [Memory.writeList, ih (Memory.write_wf h a w), Memory.read_write h]
    simp only [List.length_cons]
    by_cases hb : b = a
    · subst hb
      rw [if_neg (by omega), if_pos rfl, if_pos (by omega)]
      simp
    · rw [if_neg hb]
      by_cases hc : a + 1 ≤ b ∧ b < a + 1 + ws.length
      · rw [if_pos hc, if_pos (by omega)]
        obtain ⟨k, hk⟩ : ∃ k, b - a = k + 1 := ⟨b - a - 1, by omega⟩
        rw [hk, show b - (a + 1) = k by omega]
        simp
      · rw [if_neg hc, if_neg (by omega)]

/-- Two canonical memories that read the same everywhere are the same data. -/
theorem Memory.ext_of_read {m n : Memory} (hm : m.wf) (hn : n.wf) (h : ∀ a, m.read a = n.read a) : m = n := by
  have tail_wf {c : Nat × Word} {rest : Memory} (h : Memory.wf (c :: rest)) : Memory.wf rest :=
    ⟨(List.pairwise_cons.mp h.1).2, fun d hd => h.2 d (List.mem_cons_of_mem c hd)⟩
  have below {k : Nat} {w : Word} {rest : Memory} (h : Memory.wf ((k, w) :: rest)) {a : Nat} (ha : a < k) :
      Memory.read ((k, w) :: rest) a = Memory.unlisted := by
    refine Memory.read_of_lt_all ?_
    intro c hc
    rcases List.mem_cons.mp hc with rfl | hc
    · exact ha
    · exact Nat.lt_trans ha ((List.pairwise_cons.mp h.1).1 c hc)
  have head {k : Nat} {w : Word} {rest : Memory} : Memory.read ((k, w) :: rest) k = w := by simp [Memory.read]
  induction m generalizing n with
  | nil =>
    cases n with
    | nil => rfl
    | cons d rest =>
      obtain ⟨k, w⟩ := d
      exact absurd (head.symm.trans (h k).symm) (hn.2 (k, w) (by simp))
  | cons c rest ih =>
    obtain ⟨k, w⟩ := c
    cases n with
    | nil => exact absurd (head.symm.trans (h k)) (hm.2 (k, w) (by simp))
    | cons d rest' =>
      obtain ⟨k', w'⟩ := d
      have hw : w ≠ Memory.unlisted := hm.2 (k, w) (by simp)
      have hw' : w' ≠ Memory.unlisted := hn.2 (k', w') (by simp)
      have hkk : k = k' := by
        rcases Nat.lt_trichotomy k k' with hlt | heq | hlt
        · have := h k
          rw [head, below hn hlt] at this
          exact absurd this hw
        · exact heq
        · have := h k'
          rw [head, below hm hlt] at this
          exact absurd this.symm hw'
      subst hkk
      have hww : w = w' := by
        have := h k
        rwa [head, head] at this
      subst hww
      refine congrArg _ (ih (tail_wf hm) (tail_wf hn) ?_)
      intro a
      by_cases ha : a = k
      · subst ha
        rw [Memory.read_of_lt_all (List.pairwise_cons.mp hm.1).1, Memory.read_of_lt_all (List.pairwise_cons.mp hn.1).1]
      · have := h a
        simpa only [Memory.read, if_neg ha] using this

theorem reset_mem_wf : State.reset.mem.wf := by decide

end Sys2Proof.Machine
end

