-- ==== Sys2Proof/Laws/Operations.lean ====
section
/-! SUPPORT. One lemma per shared operation that says everything it can do, for later proofs to cite. -/

namespace Sys2Proof.Machine

/-! ### Checks -/

/-- A value operand passes with its value and fails only as an invalid word. -/
theorem State.val_cases (s : State) (o : Operand) :
    (∃ v, s.valueOf o = some v ∧ s.val o = .ok v) ∨
      (∃ w, o = .invalid w ∧ s.valueOf o = none ∧ s.val o = .error { cause := .invalidOperand, info := w.toNat }) := by
  cases o with
  | lit v => exact .inl ⟨_, rfl, rfl⟩
  | reg r => exact .inl ⟨_, rfl, rfl⟩
  | invalid w => exact .inr ⟨w, rfl, rfl, rfl⟩

@[simp] theorem State.val_of_valueOf {s : State} {o : Operand} {v : Word} (h : s.valueOf o = some v) : s.val o = .ok v := by
  cases o <;> simp_all [State.valueOf, State.val, State.readReg]

/-- A destination operand passes with the register it names; otherwise its word is recorded. -/
theorem dst_cases (o : Operand) :
    (∃ r, o = .reg r ∧ dst o = .ok r) ∨
      (destOf o = none ∧ dst o = .error { cause := .invalidDestination, info := (encodeOperand o).toNat }) := by
  cases o with
  | lit v => exact .inr ⟨rfl, by simp [dst, encodeOperand]; omega⟩
  | reg r => exact .inl ⟨r, rfl, rfl⟩
  | invalid w => exact .inr ⟨rfl, rfl⟩

@[simp] theorem State.val_invalid (s : State) (w : Word) :
    s.val (.invalid w) = .error { cause := .invalidOperand, info := w.toNat } := rfl

@[simp] theorem dst_reg (r : RegIndex) : dst (.reg r) = .ok r := rfl

@[simp] theorem State.finish_ok (s t : State) : s.finish (.ok t) = .next t := rfl

@[simp] theorem State.finish_error (s : State) (e : Raised) : s.finish (.error e) = .next (s.raise e) := rfl

@[simp] theorem ok_bind {α β : Type} (a : α) (f : α → Except Raised β) : ((Except.ok a : Except Raised α) >>= f) = f a := rfl

@[simp] theorem error_bind {α β : Type} (e : Raised) (f : α → Except Raised β) :
    ((Except.error e : Except Raised α) >>= f) = .error e := rfl

@[simp] theorem except_pure {α : Type} (a : α) : (pure a : Except Raised α) = .ok a := rfl

/-! ### Memory, stack and channels -/

theorem State.memRead_of_lt {s : State} {addr : Word} (h : addr.toNat < s.memSize) :
    s.memRead addr = .ok (s.mem.read addr.toNat) := if_pos h

theorem State.memRead_of_ge {s : State} {addr : Word} (h : s.memSize ≤ addr.toNat) :
    s.memRead addr = .error { cause := .memoryOutOfBounds, info := addr.toNat } := if_neg (by omega)

theorem State.memWrite_of_lt {s : State} {addr : Word} (h : addr.toNat < s.memSize) (v : Word) :
    s.memWrite addr v = .ok { s with mem := s.mem.write addr.toNat v } := if_pos h

theorem State.memWrite_of_ge {s : State} {addr : Word} (h : s.memSize ≤ addr.toNat) (v : Word) :
    s.memWrite addr v = .error { cause := .memoryOutOfBounds, info := addr.toNat } := if_neg (by omega)

theorem State.pushWord_of_room {s : State} (h : s.params.stackDepth ≠ some s.stack.length) (v : Word) :
    s.pushWord v = .ok { s with stack := v :: s.stack } := if_neg h

theorem State.pushWord_of_full {s : State} (h : s.params.stackDepth = some s.stack.length) (v : Word) :
    s.pushWord v = .error { cause := .stackOverflow, info := s.stack.length } := if_pos h

theorem State.popWord_of_nil {s : State} (h : s.stack = []) : s.popWord = none := by
  simp [State.popWord, h]

theorem State.popWord_of_cons {s : State} {v : Word} {rest : List Word} (h : s.stack = v :: rest) :
    s.popWord = some (v, { s with stack := rest }) := by
  simp [State.popWord, h]

/-- One request to the Input Source: the three answers, and that only the source's position moves. -/
theorem State.inNext_cases (s : State) :
    (∃ c rest, s.input = .char c :: rest ∧ s.inNext = (.char c, { s with input := rest })) ∨
      (∃ rest, s.input = .notYet :: rest ∧ s.inNext = (.wait, { s with input := rest })) ∨
      (s.input = [] ∧ s.inputTail = .waits ∧ s.inNext = (.wait, s)) ∨
      (s.input = [] ∧ s.inputTail = .ends ∧ s.inNext = (.ended, s)) := by
  unfold State.inNext
  split <;> simp_all
  split <;> simp_all

/-! ### The shared instruction forms -/

/-- The three-word form `dest := f(val(a))`: a fault of the first bad word, or the register written and `pc + 3`. -/
theorem State.unary_cases (s : State) (f : Word → Word) (d a : Operand) :
    (∃ e, s.unary f d a = .next (s.raise e)) ∨
      ∃ r v, d = .reg r ∧ s.valueOf a = some v ∧ s.unary f d a = .next ((s.writeReg r (f v)).advance 3) := by
  rcases dst_cases d with ⟨r, rfl, hd⟩ | ⟨_, hd⟩
  · rcases s.val_cases a with ⟨v, hv, ha⟩ | ⟨w, rfl, hv, ha⟩
    · exact .inr ⟨r, v, rfl, hv, by simp [State.unary, hd, ha]⟩
    · exact .inl ⟨_, by simp only [State.unary, hd, ha, ok_bind, error_bind, finish_error]; rfl⟩
  · exact .inl ⟨_, by simp only [State.unary, hd, error_bind, finish_error]; rfl⟩

/-- The four-word form `dest := f(val(a), val(b))`. -/
theorem State.binary_cases (s : State) (f : Word → Word → Word) (d a b : Operand) :
    (∃ e, s.binary f d a b = .next (s.raise e)) ∨
      ∃ r v w, d = .reg r ∧ s.valueOf a = some v ∧ s.valueOf b = some w ∧
        s.binary f d a b = .next ((s.writeReg r (f v w)).advance 4) := by
  rcases dst_cases d with ⟨r, rfl, hd⟩ | ⟨_, hd⟩
  · rcases s.val_cases a with ⟨v, hv, ha⟩ | ⟨w, rfl, hv, ha⟩
    · rcases s.val_cases b with ⟨w, hw, hb⟩ | ⟨w, rfl, hw, hb⟩
      · exact .inr ⟨r, v, w, rfl, hv, hw, by simp [State.binary, hd, ha, hb]⟩
      · exact .inl ⟨_, by simp only [State.binary, hd, ha, hb, ok_bind, error_bind, finish_error]; rfl⟩
    · exact .inl ⟨_, by simp only [State.binary, hd, ha, ok_bind, error_bind, finish_error]; rfl⟩
  · exact .inl ⟨_, by simp only [State.binary, hd, error_bind, finish_error]; rfl⟩

/-- The form of a conditional jump. -/
theorem State.branch_cases (s : State) (taken : Word → Bool) (a b : Operand) :
    (∃ e, s.branch taken a b = .next (s.raise e)) ∨
      ∃ c t, s.valueOf a = some c ∧ s.valueOf b = some t ∧
        s.branch taken a b = .next (if taken c then s.jump t else s.advance 3) := by
  rcases s.val_cases a with ⟨v, hv, ha⟩ | ⟨w, rfl, hv, ha⟩
  · rcases s.val_cases b with ⟨w, hw, hb⟩ | ⟨w, rfl, hw, hb⟩
    · exact .inr ⟨v, w, hv, hw, by simp [State.branch, ha, hb]⟩
    · exact .inl ⟨_, by simp only [State.branch, ha, hb, ok_bind, error_bind, finish_error]; rfl⟩
  · exact .inl ⟨_, by simp only [State.branch, ha, error_bind, finish_error]; rfl⟩

/-! ### Results -/

@[simp] theorem reduce15_toNat (n : Nat) : (reduce15 n).toNat = n % 32768 := by
  simp [reduce15]; omega

theorem andResult_eq (a b : Word) : andResult a b = reduce15 (Nat.land a.toNat b.toNat) := by
  apply BitVec.eq_of_toNat_eq
  rw [reduce15_toNat]
  simp only [andResult, BitVec.toNat_and]
  exact Nat.and_two_pow_sub_one_eq_mod _ 15

theorem orResult_eq (a b : Word) : orResult a b = reduce15 (Nat.lor a.toNat b.toNat) := by
  apply BitVec.eq_of_toNat_eq
  rw [reduce15_toNat]
  simp only [orResult, BitVec.toNat_and, BitVec.toNat_or]
  exact Nat.and_two_pow_sub_one_eq_mod _ 15

theorem notResult_toNat (a : Word) : (notResult a).toNat = 32767 - a.toNat % 32768 := by
  have h : (notResult a).toNat = (65535 - a.toNat) % 32768 := by
    simp only [notResult, BitVec.toNat_and, BitVec.toNat_not]
    exact Nat.and_two_pow_sub_one_eq_mod _ 15
  have := a.isLt
  omega

end Sys2Proof.Machine
end

