-- ==== Sys2Proof/Laws/Meanings.lean ====
section
/-! SUPPORT. One lemma per meaning that is not an instance of a shared form (State.unary_cases, State.binary_cases,
State.branch_cases cover the others): what it can answer, and when. -/

namespace Sys2Proof.Machine

theorem execPush_cases (a : Operand) (s : State) :
    (∃ e, execPush a s = .next (s.raise e)) ∨
      ∃ v, s.valueOf a = some v ∧ s.params.stackDepth ≠ some s.stack.length ∧
        execPush a s = .next { s with stack := v :: s.stack, pc := s.pc + 2 } := by
  rcases s.val_cases a with ⟨v, hv, ha⟩ | ⟨w, rfl, _, ha⟩
  · by_cases hf : s.params.stackDepth = some s.stack.length
    · exact .inl ⟨_, by simp only [execPush, ha, State.pushWord_of_full hf, ok_bind, error_bind]; rfl⟩
    · exact .inr ⟨v, hv, hf, by simp only [execPush, ha, State.pushWord_of_room hf, ok_bind]; rfl⟩
  · exact .inl ⟨_, by simp only [execPush, ha, error_bind]; rfl⟩

theorem execPop_cases (d : Operand) (s : State) :
    (∃ e, execPop d s = .next (s.raise e)) ∨
      ∃ r v rest, d = .reg r ∧ s.stack = v :: rest ∧
        execPop d s = .next ((({ s with stack := rest } : State).writeReg r v).advance 2) := by
  rcases dst_cases d with ⟨r, rfl, hd⟩ | ⟨_, hd⟩
  · cases hs : s.stack with
    | nil => exact .inl ⟨_, by simp only [execPop, hd, State.popWord_of_nil hs, ok_bind]; rfl⟩
    | cons v rest => exact .inr ⟨r, v, rest, rfl, rfl, by simp only [execPop, hd, State.popWord_of_cons hs, ok_bind]; rfl⟩
  · exact .inl ⟨_, by simp only [execPop, hd, error_bind]; rfl⟩

theorem execJmp_cases (a : Operand) (s : State) :
    (∃ e, execJmp a s = .next (s.raise e)) ∨ ∃ t, s.valueOf a = some t ∧ execJmp a s = .next (s.jump t) := by
  rcases s.val_cases a with ⟨v, hv, ha⟩ | ⟨w, rfl, _, ha⟩
  · exact .inr ⟨v, hv, by simp only [execJmp, ha, ok_bind]; rfl⟩
  · exact .inl ⟨_, by simp only [execJmp, ha, error_bind]; rfl⟩

theorem execMod_cases (d a b : Operand) (s : State) :
    (∃ e, execMod d a b s = .next (s.raise e)) ∨
      ∃ r v w, d = .reg r ∧ s.valueOf a = some v ∧ s.valueOf b = some w ∧ w ≠ 0 ∧
        execMod d a b s = .next ((s.writeReg r (modResult v w)).advance 4) := by
  rcases dst_cases d with ⟨r, rfl, hd⟩ | ⟨_, hd⟩
  · rcases s.val_cases a with ⟨v, hv, ha⟩ | ⟨w, rfl, _, ha⟩
    · rcases s.val_cases b with ⟨w, hw, hb⟩ | ⟨w, rfl, _, hb⟩
      · by_cases hz : w = 0
        · exact .inl ⟨_, by simp only [execMod, hd, ha, hb, ok_bind, if_pos hz]; rfl⟩
        · exact .inr ⟨r, v, w, rfl, hv, hw, hz, by simp only [execMod, hd, ha, hb, ok_bind, if_neg hz]; rfl⟩
      · exact .inl ⟨_, by simp only [execMod, hd, ha, hb, ok_bind, error_bind]; rfl⟩
    · exact .inl ⟨_, by simp only [execMod, hd, ha, ok_bind, error_bind]; rfl⟩
  · exact .inl ⟨_, by simp only [execMod, hd, error_bind]; rfl⟩

theorem execRmem_cases (d a : Operand) (s : State) :
    (∃ e, execRmem d a s = .next (s.raise e)) ∨
      ∃ r addr, d = .reg r ∧ s.valueOf a = some addr ∧ addr.toNat < s.memSize ∧
        execRmem d a s = .next ((s.writeReg r (s.mem.read addr.toNat)).advance 3) := by
  rcases dst_cases d with ⟨r, rfl, hd⟩ | ⟨_, hd⟩
  · rcases s.val_cases a with ⟨v, hv, ha⟩ | ⟨w, rfl, _, ha⟩
    · by_cases hm : v.toNat < s.memSize
      · exact .inr ⟨r, v, rfl, hv, hm, by simp only [execRmem, hd, ha, State.memRead_of_lt hm, ok_bind]; rfl⟩
      · exact .inl ⟨_, by
          simp only [execRmem, hd, ha, State.memRead_of_ge (Nat.le_of_not_lt hm), ok_bind, error_bind]; rfl⟩
    · exact .inl ⟨_, by simp only [execRmem, hd, ha, ok_bind, error_bind]; rfl⟩
  · exact .inl ⟨_, by simp only [execRmem, hd, error_bind]; rfl⟩

theorem execWmem_cases (a b : Operand) (s : State) :
    (∃ e, execWmem a b s = .next (s.raise e)) ∨
      ∃ addr v, s.valueOf a = some addr ∧ s.valueOf b = some v ∧ addr.toNat < s.memSize ∧
        execWmem a b s = .next (({ s with mem := s.mem.write addr.toNat v } : State).advance 3) := by
  rcases s.val_cases a with ⟨v, hv, ha⟩ | ⟨w, rfl, _, ha⟩
  · rcases s.val_cases b with ⟨w, hw, hb⟩ | ⟨w, rfl, _, hb⟩
    · by_cases hm : v.toNat < s.memSize
      · exact .inr ⟨v, w, hv, hw, hm, by simp only [execWmem, ha, hb, State.memWrite_of_lt hm, ok_bind]; rfl⟩
      · exact .inl ⟨_, by
          simp only [execWmem, ha, hb, State.memWrite_of_ge (Nat.le_of_not_lt hm), ok_bind, error_bind]; rfl⟩
    · exact .inl ⟨_, by simp only [execWmem, ha, hb, ok_bind, error_bind]; rfl⟩
  · exact .inl ⟨_, by simp only [execWmem, ha, error_bind]; rfl⟩

theorem execCall_cases (a : Operand) (s : State) :
    (∃ e, execCall a s = .next (s.raise e)) ∨
      ∃ t, s.valueOf a = some t ∧ s.params.stackDepth ≠ some s.stack.length ∧
        execCall a s = .next { s with stack := (s.pc + 2) :: s.stack, pc := t } := by
  rcases s.val_cases a with ⟨v, hv, ha⟩ | ⟨w, rfl, _, ha⟩
  · by_cases hf : s.params.stackDepth = some s.stack.length
    · exact .inl ⟨_, by simp only [execCall, ha, State.pushWord_of_full hf, ok_bind, error_bind]; rfl⟩
    · exact .inr ⟨v, hv, hf, by simp only [execCall, ha, State.pushWord_of_room hf, ok_bind]; rfl⟩
  · exact .inl ⟨_, by simp only [execCall, ha, error_bind]; rfl⟩

theorem execRet_cases (s : State) :
    (s.stack = [] ∧ execRet s = .next (s.stop .halted)) ∨
      ∃ t rest, s.stack = t :: rest ∧ execRet s = .next (({ s with stack := rest } : State).jump t) := by
  cases hs : s.stack with
  | nil => exact .inl ⟨rfl, by simp only [execRet, State.popWord_of_nil hs]⟩
  | cons t rest => exact .inr ⟨t, rest, rfl, by simp only [execRet, State.popWord_of_cons hs]⟩

theorem execOut_cases (a : Operand) (s : State) :
    (∃ e, execOut a s = .next (s.raise e)) ∨
      ∃ v, s.valueOf a = some v ∧ execOut a s = .next ((s.outEmit (v.setWidth 8)).advance 2) := by
  rcases s.val_cases a with ⟨v, hv, ha⟩ | ⟨w, rfl, _, ha⟩
  · exact .inr ⟨v, hv, by simp only [execOut, ha, ok_bind]; rfl⟩
  · exact .inl ⟨_, by simp only [execOut, ha, error_bind]; rfl⟩

theorem execIn_cases (d : Operand) (s : State) :
    (∃ e, execIn d s = .next (s.raise e)) ∨
      ∃ r, d = .reg r ∧
        ((∃ c rest, s.input = .char c :: rest ∧
            execIn d s = .next ((({ s with input := rest } : State).writeReg r (c.setWidth 16)).advance 2)) ∨
          (∃ rest, s.input = .notYet :: rest ∧ execIn d s = .next { s with input := rest }) ∨
          (s.input = [] ∧ s.inputTail = .waits ∧ execIn d s = .next s) ∨
          (s.input = [] ∧ s.inputTail = .ends ∧ execIn d s = .next (s.stop .inputExhausted))) := by
  rcases dst_cases d with ⟨r, rfl, hd⟩ | ⟨_, hd⟩
  · refine .inr ⟨r, rfl, ?_⟩
    rcases s.inNext_cases with ⟨c, rest, hi, hn⟩ | ⟨rest, hi, hn⟩ | ⟨hi, hw, hn⟩ | ⟨hi, hw, hn⟩
    · exact .inl ⟨c, rest, hi, by simp only [execIn, hd, hn, ok_bind]; rfl⟩
    · exact .inr (.inl ⟨rest, hi, by simp only [execIn, hd, hn, ok_bind]; rfl⟩)
    · exact .inr (.inr (.inl ⟨hi, hw, by simp only [execIn, hd, hn, ok_bind]; rfl⟩))
    · exact .inr (.inr (.inr ⟨hi, hw, by simp only [execIn, hd, hn, ok_bind]; rfl⟩))
  · exact .inl ⟨_, by simp only [execIn, hd, error_bind]; rfl⟩

end Sys2Proof.Machine
end

