-- ==== Sys2Proof/Laws/PerInstr.lean ====
section
/-! SUPPORT. Statements made of every instruction as syntax, one lemma per constructor. -/

namespace Sys2Proof.Laws.EncodingLength

/-- The encoder gives a well-formed instruction as many words as a decoder tells from its opcode word alone (30_encoding.md rule R65). -/
def Statement (i : Instr) : Prop := i.wf = true → (encode i).length = instrLength i.opcode

theorem halt : Statement .halt := fun _ => rfl
theorem set (d a : Operand) : Statement (.set d a) := fun _ => rfl
theorem push (a : Operand) : Statement (.push a) := fun _ => rfl
theorem pop (d : Operand) : Statement (.pop d) := fun _ => rfl
theorem eq (d a b : Operand) : Statement (.eq d a b) := fun _ => rfl
theorem gt (d a b : Operand) : Statement (.gt d a b) := fun _ => rfl
theorem jmp (a : Operand) : Statement (.jmp a) := fun _ => rfl
theorem jt (a b : Operand) : Statement (.jt a b) := fun _ => rfl
theorem jf (a b : Operand) : Statement (.jf a b) := fun _ => rfl
theorem add (d a b : Operand) : Statement (.add d a b) := fun _ => rfl
theorem mult (d a b : Operand) : Statement (.mult d a b) := fun _ => rfl
theorem mod (d a b : Operand) : Statement (.mod d a b) := fun _ => rfl
theorem and (d a b : Operand) : Statement (.and d a b) := fun _ => rfl
theorem or (d a b : Operand) : Statement (.or d a b) := fun _ => rfl
theorem not (d a : Operand) : Statement (.not d a) := fun _ => rfl
theorem rmem (d a : Operand) : Statement (.rmem d a) := fun _ => rfl
theorem wmem (a b : Operand) : Statement (.wmem a b) := fun _ => rfl
theorem call (a : Operand) : Statement (.call a) := fun _ => rfl
theorem ret : Statement .ret := fun _ => rfl
theorem out (a : Operand) : Statement (.out a) := fun _ => rfl
theorem inp (d : Operand) : Statement (.inp d) := fun _ => rfl

theorem noop (op : Word) : Statement (.noop op) := by
  intro h
  have h : 21 ≤ op.toNat := by simpa [Instr.wf] using h
  simp only [encode, Instr.operands, Instr.opcode, List.map_nil, List.length_singleton, instrLength]
  split <;> omega

end Sys2Proof.Laws.EncodingLength
end

