-- ==== Sys2Proof/Laws/Step.lean ====
section
/-! SUPPORT. What a step and an instruction can do: inversion lemmas that the invariants are derived from. -/

namespace Sys2Proof.Machine

/-- A step that answers a next state began in a running core, and either ended the run at the bounds check or executed the
fetched instruction. -/
theorem step_next_cases {s t : State} (h : step s = .next t) :
    s.runState = .running ∧
      ((s.memSize ≤ s.pc.toNat ∧ t = s.stop .programExhausted) ∨
        (s.pc.toNat < s.memSize ∧ exec s.fetchInstr s = .next t)) := by
  unfold step State.startStep at h
  split at h
  · rename_i i hb
    split at hb
    · split at hb
      · cases hb
        exact ⟨‹_›, .inr ⟨‹_›, h⟩⟩
      · cases hb
    · cases hb
  · rename_i r hb
    split at hb
    · split at hb
      · cases hb
      · cases hb
        cases h
        exact ⟨‹_›, .inl ⟨by omega, rfl⟩⟩
    · cases hb
      cases h

/-- The states an instruction begun in `s` can lead to. A fault and a stop change `run_state` alone (R161, R164). -/
inductive Effect (s : State) : State → Prop where
  | fault (e : Raised) : Effect s (s.raise e)
  | stop (reason : StopReason) : Effect s (s.stop reason)
  | advance (n : Nat) : Effect s (s.advance n)
  | jump (target : Word) : Effect s (s.jump target)
  | register (r : RegIndex) (v : Word) (n : Nat) : Effect s ((s.writeReg r v).advance n)
  | store (addr v : Word) (h : addr.toNat < s.memSize) :
      Effect s (({ s with mem := s.mem.write addr.toNat v } : State).advance 3)
  | pushed (v target : Word) (h : s.params.stackDepth ≠ some s.stack.length) :
      Effect s { s with stack := v :: s.stack, pc := target }
  | popped (r : RegIndex) (v : Word) (rest : List Word) (h : s.stack = v :: rest) :
      Effect s ((({ s with stack := rest } : State).writeReg r v).advance 2)
  | returned (v : Word) (rest : List Word) (h : s.stack = v :: rest) :
      Effect s (({ s with stack := rest } : State).jump v)
  | emitted (b : Byte) : Effect s ((s.outEmit b).advance 2)
  | received (r : RegIndex) (c : Byte) (rest : List InputEvent) (h : s.input = .char c :: rest) :
      Effect s ((({ s with input := rest } : State).writeReg r (c.setWidth 16)).advance 2)
  | notYet (rest : List InputEvent) (h : s.input = .notYet :: rest) : Effect s { s with input := rest }
  | waiting : Effect s s

/-- Every next state of an instruction is one of those. -/
theorem exec_effect {i : Instr} {s t : State} (h : exec i s = .next t) : Effect s t := by
  have by_eq {t' : State} (h' : exec i s = .next t') (he : Effect s t') : Effect s t := by
    rw [h'] at h; injection h with h; exact h ▸ he
  have un (f : Word → Word) (d a : Operand) (he : exec i s = s.unary f d a) : Effect s t := by
    rcases s.unary_cases f d a with ⟨e, hu⟩ | ⟨r, v, _, _, hu⟩
    · exact by_eq (he.trans hu) (.fault e)
    · exact by_eq (he.trans hu) (.register r _ 3)
  have bi (f : Word → Word → Word) (d a b : Operand) (he : exec i s = s.binary f d a b) : Effect s t := by
    rcases s.binary_cases f d a b with ⟨e, hu⟩ | ⟨r, v, w, _, _, _, hu⟩
    · exact by_eq (he.trans hu) (.fault e)
    · exact by_eq (he.trans hu) (.register r _ 4)
  have br (f : Word → Bool) (a b : Operand) (he : exec i s = s.branch f a b) : Effect s t := by
    rcases s.branch_cases f a b with ⟨e, hu⟩ | ⟨c, w, _, _, hu⟩
    · exact by_eq (he.trans hu) (.fault e)
    · refine by_eq (he.trans hu) ?_
      split
      · exact .jump w
      · exact .advance 3
  cases i with
  | halt => exact by_eq rfl (.stop .halted)
  | set d a => exact un id d a rfl
  | push a =>
    rcases execPush_cases a s with ⟨e, he⟩ | ⟨v, _, hf, he⟩
    · exact by_eq he (.fault e)
    · exact by_eq he (.pushed v (s.pc + 2) hf)
  | pop d =>
    rcases execPop_cases d s with ⟨e, he⟩ | ⟨r, v, rest, _, hs, he⟩
    · exact by_eq he (.fault e)
    · exact by_eq he (.popped r v rest hs)
  | eq d a b => exact bi eqResult d a b rfl
  | gt d a b => exact bi gtResult d a b rfl
  | jmp a =>
    rcases execJmp_cases a s with ⟨e, he⟩ | ⟨v, _, he⟩
    · exact by_eq he (.fault e)
    · exact by_eq he (.jump v)
  | jt a b => exact br nonZero a b rfl
  | jf a b => exact br isZero a b rfl
  | add d a b => exact bi addResult d a b rfl
  | mult d a b => exact bi multResult d a b rfl
  | mod d a b =>
    rcases execMod_cases d a b s with ⟨e, he⟩ | ⟨r, v, w, _, _, _, _, he⟩
    · exact by_eq he (.fault e)
    · exact by_eq he (.register r _ 4)
  | and d a b => exact bi andResult d a b rfl
  | or d a b => exact bi orResult d a b rfl
  | not d a => exact un notResult d a rfl
  | rmem d a =>
    rcases execRmem_cases d a s with ⟨e, he⟩ | ⟨r, addr, _, _, _, he⟩
    · exact by_eq he (.fault e)
    · exact by_eq he (.register r _ 3)
  | wmem a b =>
    rcases execWmem_cases a b s with ⟨e, he⟩ | ⟨addr, v, _, _, hm, he⟩
    · exact by_eq he (.fault e)
    · exact by_eq he (.store addr v hm)
  | call a =>
    rcases execCall_cases a s with ⟨e, he⟩ | ⟨v, _, hf, he⟩
    · exact by_eq he (.fault e)
    · exact by_eq he (.pushed (s.pc + 2) v hf)
  | ret =>
    rcases execRet_cases s with ⟨_, he⟩ | ⟨v, rest, hs, he⟩
    · exact by_eq he (.stop .halted)
    · exact by_eq he (.returned v rest hs)
  | out a =>
    rcases execOut_cases a s with ⟨e, he⟩ | ⟨v, _, he⟩
    · exact by_eq he (.fault e)
    · exact by_eq he (.emitted _)
  | inp d =>
    rcases execIn_cases d s with ⟨e, he⟩ | ⟨r, _, h'⟩
    · exact by_eq he (.fault e)
    · rcases h' with ⟨c, rest, hi, he⟩ | ⟨rest, hi, he⟩ | ⟨_, _, he⟩ | ⟨_, _, he⟩
      · exact by_eq he (.received r c rest hi)
      · exact by_eq he (.notYet rest hi)
      · exact by_eq he .waiting
      · exact by_eq he (.stop .inputExhausted)
  | noop op => exact by_eq rfl (.advance 1)

/-- A state that its step leads back to is where any number of steps leads. -/
theorem run_of_step_self (M : Host.Core) {s : M.State} (h : M.step s = .next s) (n : Nat) : M.run n s = .next s := by
  induction n with
  | zero => rfl
  | succ n ih => simp [Host.Core.run, h, ih]

end Sys2Proof.Machine
end

