-- ==== Sys2Proof/Tests/Slice0.lean ====
section
/-! SUPPORT. The model's own tests. Expected results are the vectors of spec/95_test_vectors.md (S, V numbers) and the examples in the
instruction files; words are written out from the opcode map (R62) and the operand classes (R54). At the end, for every statement with
hypotheses, a state and operands that meet them. -/

namespace Sys2Proof.Tests

open Sys2Proof.Machine

/-- Reset for an image, `MEMSIZE` 32768 and an input that only ends. -/
def start (image : List Word) : State := { State.reset with mem := Memory.writeList [] 0 image }

/-- The same in a memory of `n` cells. -/
def small (n : Fin 32769) (image : List Word) : State :=
  { start image with params := { memSize := n, stackDepth := none } }

/-- The state after one step, or the same state if there is none. -/
def after (s : State) : State :=
  match step s with
  | .next t => t
  | .fault _ => s
  | .refused _ => s

/-! ### WellFormed: each check refuses an ill-formed term -/

theorem test_wf_invalid_operand_below_32776 : (Operand.invalid 32775).wf = false := by decide
theorem test_wf_invalid_operand_at_32776 : (Operand.invalid 32776).wf = true := by decide
theorem test_wf_noop_of_a_defined_opcode : (Instr.noop 20).wf = false := by decide
theorem test_wf_noop_21 : (Instr.noop 21).wf = true := by decide
theorem test_wf_bad_destination_operand : (Instr.set (.invalid 5) (.lit 1)).wf = false := by decide
theorem test_wf_bad_second_operand : (Instr.jt (.lit 1) (.invalid 0x8007)).wf = false := by decide
theorem test_wf_bad_third_operand : (Instr.add (.reg 0) (.lit 1) (.invalid 0)).wf = false := by decide

/-! ### Decoding, a word written out for every constructor (R62, R54) -/

theorem test_decode_halt : decodeWords 0 1 2 3 = .halt := by decide
theorem test_decode_set : decodeWords 1 32768 5 9 = .set (.reg 0) (.lit 5) := by decide
theorem test_decode_push : decodeWords 2 32770 0 0 = .push (.reg 2) := by decide
theorem test_decode_pop : decodeWords 3 32769 0 0 = .pop (.reg 1) := by decide
theorem test_decode_eq : decodeWords 4 32769 32768 0 = .eq (.reg 1) (.reg 0) (.lit 0) := by decide
theorem test_decode_gt : decodeWords 5 32768 5 3 = .gt (.reg 0) (.lit 5) (.lit 3) := by decide
theorem test_decode_jmp : decodeWords 6 100 0 0 = .jmp (.lit 100) := by decide
theorem test_decode_jt : decodeWords 7 32768 50 0 = .jt (.reg 0) (.lit 50) := by decide
theorem test_decode_jf : decodeWords 8 32768 32769 0 = .jf (.reg 0) (.reg 1) := by decide
theorem test_decode_add : decodeWords 9 32768 32767 2 = .add (.reg 0) (.lit 32767) (.lit 2) := by decide
theorem test_decode_mult : decodeWords 10 32768 1 32776 = .mult (.reg 0) (.lit 1) (.invalid 32776) := by decide
theorem test_decode_mod : decodeWords 11 32772 32768 30000 = .mod (.reg 4) (.reg 0) (.lit 30000) := by decide
theorem test_decode_and : decodeWords 12 32770 32768 32768 = .and (.reg 2) (.reg 0) (.reg 0) := by decide
theorem test_decode_or : decodeWords 13 32775 32768 0 = .or (.reg 7) (.reg 0) (.lit 0) := by decide
theorem test_decode_not : decodeWords 14 32768 40000 0 = .not (.reg 0) (.invalid 40000) := by decide
theorem test_decode_rmem : decodeWords 15 32768 31 0 = .rmem (.reg 0) (.lit 31) := by decide
theorem test_decode_wmem : decodeWords 16 300 32769 0 = .wmem (.lit 300) (.reg 1) := by decide
theorem test_decode_call : decodeWords 17 40 0 0 = .call (.lit 40) := by decide
theorem test_decode_ret : decodeWords 18 1 2 3 = .ret := by decide
theorem test_decode_out : decodeWords 19 65 19 10 = .out (.lit 65) := by decide
theorem test_decode_in : decodeWords 20 32773 0 0 = .inp (.reg 5) := by decide
theorem test_decode_noop : decodeWords 21 1 2 3 = .noop 21 := by decide
theorem test_decode_register_word_as_opcode : decodeWords 32768 1 2 3 = .noop 32768 := by decide
theorem test_decode_refuses_a_truncated_list : decode [9, 32768, 1] = .error (.truncated 4 3) := by rfl
theorem test_decode_refuses_the_empty_list : decode [] = .error .noOpcodeWord := by rfl
theorem test_decode_table_word_of_set : decodeTableWord 16 1 = some (.set (.lit 0) (.lit 0)) := by decide
theorem test_decode_table_word_with_operands : decodeTableWord 48 0x000580000001 = some (.set (.reg 0) (.lit 5)) := by decide

/-! ### One step each (95_test_vectors.md) -/

theorem test_halt_in_the_last_cell : (after (small 1 [0])).runState = .stopped .halted ∧ (after (small 1 [0])).pc = 0 := by decide
theorem test_noop_invalid_word : (after (start [65535])).pc = 1 ∧ (after (start [65535])).runState = .running := by decide
theorem test_set : (after (start [1, 32775, 32767])).regs = #v[0, 0, 0, 0, 0, 0, 0, 32767] := by decide
theorem test_set_first_bad_word_wins : (after (start [1, 5, 40000])).runState = .faulted .invalidDestination 0 5 := by decide
theorem test_push : (after { start [2, 32770] with regs := #v[0, 0, 300, 0, 0, 0, 0, 0] }).stack = [300] := by decide
theorem test_push_overflow :
    after { start [2, 7] with stack := [9], params := ⟨32768, some 1⟩ } =
      { start [2, 7] with stack := [9], params := ⟨32768, some 1⟩, runState := .faulted .stackOverflow 0 1 } := by decide
theorem test_pop : (after { start [3, 32768] with stack := [22, 11] }).stack = [11] ∧
    (after { start [3, 32768] with stack := [22, 11] }).regs[0] = 22 := by decide
theorem test_pop_underflow : after (start [3, 32768]) = { start [3, 32768] with runState := .faulted .stackUnderflow 0 0 } := by decide
theorem test_eq_is_not_reduced : (after { start [4, 32768, 32769, 7232] with regs := #v[5, 40000, 0, 0, 0, 0, 0, 0] }).regs[0] = 0 := by
  decide
theorem test_eq_same_register : (after { start [4, 32768, 32768, 32768] with regs := #v[777, 0, 0, 0, 0, 0, 0, 0] }).regs[0] = 1 := by
  decide
theorem test_gt_unsigned : (after (start [5, 32768, 32767, 0])).regs[0] = 1 := by decide
theorem test_gt_strict : (after (start [5, 32768, 3, 3])).regs[0] = 0 := by decide
theorem test_jmp_past_memory : (after (small 100 [6, 200])).pc = 200 ∧ (after (small 100 [6, 200])).runState = .running := by decide
theorem test_jmp_missing_operand : (after (small 1 [6])).pc = 0 ∧ (after (small 1 [6])).runState = .running := by decide
theorem test_jt_taken : (after (start [7, 1, 100])).pc = 100 := by decide
theorem test_jt_untaken_target_checked : (after (start [7, 0, 32776])).runState = .faulted .invalidOperand 0 32776 := by decide
theorem test_jf_taken : (after (start [8, 0, 100])).pc = 100 := by decide
theorem test_jf_32768_is_not_zero : (after { start [8, 32768, 100] with regs := #v[32768, 0, 0, 0, 0, 0, 0, 0] }).pc = 3 := by decide
theorem test_add_wraps : (after (start [9, 32768, 32767, 2])).regs[0] = 1 := by decide
theorem test_add_same_register : (after { start [9, 32768, 32768, 32768] with regs := #v[20000, 0, 0, 0, 0, 0, 0, 0] }).regs[0] = 7232 := by
  decide
theorem test_mult_wraps : (after (start [10, 32768, 32767, 32767])).regs[0] = 1 := by decide
theorem test_mult : (after (start [10, 32768, 300, 200])).regs[0] = 27232 := by decide
theorem test_mod_dividend_first : (after (start [11, 32768, 3, 7])).regs[0] = 3 := by decide
theorem test_mod_by_zero : (after (start [11, 32768, 5, 0])).runState = .faulted .divideByZero 0 0 := by decide
theorem test_and : (after (start [12, 32768, 32767, 21845])).regs[0] = 21845 := by decide
theorem test_and_masks_bit_15 : (after { start [12, 32770, 32768, 32768] with regs := #v[40000, 0, 0, 0, 0, 0, 0, 0] }).regs[2] = 7232 := by
  decide
theorem test_or : (after (start [13, 32768, 21845, 10922])).regs[0] = 32767 := by decide
theorem test_or_masks_bit_15 : (after { start [13, 32775, 32768, 0] with regs := #v[40000, 0, 0, 0, 0, 0, 0, 0] }).regs[7] = 7232 := by
  decide
theorem test_not_zero : (after (start [14, 32768, 0])).regs[0] = 32767 := by decide
theorem test_not_masks_bit_15 : (after { start [14, 32771, 32768] with regs := #v[40000, 0, 0, 0, 0, 0, 0, 0] }).regs[3] = 25535 := by decide
theorem test_rmem_address_is_its_own_destination :
    (after { start [15, 32768, 32768] with regs := #v[2, 0, 0, 0, 0, 0, 0, 0] }).regs[0] = 32768 := by decide
theorem test_rmem_out_of_bounds : (after (small 50 [15, 32768, 50])).runState = .faulted .memoryOutOfBounds 0 50 := by decide
theorem test_wmem_over_its_own_operand : (after (start [16, 1, 0])).mem.read 1 = 0 ∧ (after (start [16, 1, 0])).pc = 3 := by decide
theorem test_wmem_does_not_grow_memory :
    after (small 4 [16, 10, 1, 0]) = { small 4 [16, 10, 1, 0] with runState := .faulted .memoryOutOfBounds 0 10 } := by decide
theorem test_call_in_the_last_cell :
    (after { small 100 [] with pc := 99, mem := [(99, 17)] }).stack = [101] ∧
      (after { small 100 [] with pc := 99, mem := [(99, 17)] }).pc = 0 := by decide
theorem test_call_faulting_pushes_nothing : (after (start [17, 32776])).stack = [] := by decide
theorem test_ret : (after { start [18] with stack := [40000, 7] }).pc = 40000 ∧ (after { start [18] with stack := [40000, 7] }).stack = [7] := by
  decide
theorem test_ret_on_the_empty_stack : (after (start [18])).runState = .stopped .halted ∧ (after (start [18])).pc = 0 := by decide
theorem test_out_truncates : (after { start [19, 321] with output := [72] }).output = [72, 65] := by decide
theorem test_out_invalid_word_emits_nothing : (after (start [19, 32776])).output = [] := by decide
theorem test_in : after { start [20, 32768] with regs := #v[40000, 0, 0, 0, 0, 0, 0, 0], input := [.char 104, .char 105] } =
    { start [20, 32768] with regs := #v[104, 0, 0, 0, 0, 0, 0, 0], input := [.char 105], pc := 2 } := by decide
theorem test_in_bad_destination_consumes_nothing : (after { start [20, 5] with input := [.char 120] }).input = [.char 120] ∧
    (after { start [20, 5] with input := [.char 120] }).runState = .faulted .invalidDestination 0 5 := by decide

/-! ### Whole-machine behaviour, one step -/

theorem test_empty_memory_is_exhausted_at_once : (after (small 0 [])).runState = .stopped .programExhausted := by decide
theorem test_reset_runs_a_halt : (after State.reset).runState = .stopped .halted := by decide
theorem test_missing_destination_reads_zero : (after (small 1 [1])).runState = .faulted .invalidDestination 0 0 := by decide
theorem test_stopped_core_takes_no_step : step { start [0] with runState := .stopped .halted } = .fault .notRunning := by rfl

/-! ### Image, notation, trace -/

theorem test_image_bytes : wordsOfBytes [0x13, 0x00, 0x41, 0x00, 0x13, 0x00, 0x0a, 0x00, 0x00, 0x00] = .ok [19, 65, 19, 10, 0] := by rfl
theorem test_bytes_of_words : bytesOfWords [1, 32768, 5] = [0x01, 0x00, 0x00, 0x80, 0x05, 0x00] := by decide
theorem test_assemble_set : assemble "set r0 5" = .ok [1, 32768, 5] := by rfl
theorem test_assemble_label_comment_character : assemble "x: jmp x # on\nout 'A'; .word 9" = .ok [6, 0, 19, 65, 9] := by rfl
/-- The model's choices in the text (notes/assumptions/16.md): white space after a label's colon, and a mnemonic's name as a label. -/
theorem test_assemble_label_form :
    assemble "x:jmp x" = .error (.unknownMnemonic "x:jmp".toList) ∧ assemble "jmp: jmp jmp" = .ok [6, 0] := ⟨rfl, rfl⟩
theorem test_render : renderInstr (.jt (.reg 3) (.lit 100)) = "jt r3 100" := by decide

/-! ### Witnesses: states and operands that meet a statement's hypotheses, for each clause and at the ends of its range -/

open Sys2Proof.Claims

/-- A state with a different value in every register, for the witnesses. -/
def busy : State := { start [0] with regs := #v[0, 1, 32767, 32768, 32775, 32776, 40000, 65535], stack := [9] }

theorem witness_DecodeOfEncodeGivesTheInstructionBack :
    (Instr.add (.reg 7) (.lit 32767) (.invalid 65535)).wf = true ∧ (Instr.noop 65535).wf = true ∧ Instr.halt.wf = true := by decide
theorem witness_EncodeOfDecodeGivesTheWordsBack :
    decode [9, 32768, 1, 65535, 7] = .ok (.add (.reg 0) (.lit 1) (.invalid 65535), [7]) ∧ decode [18] = .ok (.ret, []) := ⟨rfl, rfl⟩
theorem witness_OperandWordsFallIntoThreeClasses :
    ((0 : Word).toNat ≤ 32767 ∧ (32767 : Word).toNat ≤ 32767) ∧
    (32768 ≤ (32768 : Word).toNat ∧ (32775 : Word).toNat ≤ 32775) ∧
    (32776 ≤ (32776 : Word).toNat ∧ 32776 ≤ (65535 : Word).toNat) := by decide
theorem witness_UnknownOpcodesAreNoops :
    (start [21]).runState = .running ∧ (start [21]).pc.toNat < (start [21]).memSize ∧
      21 ≤ ((start [21]).mem.read (start [21]).pc.toNat).toNat ∧ 21 ≤ ((start [65535]).mem.read (start [65535]).pc.toNat).toNat := by
  decide
theorem witness_OperandWordsResolve :
    (0 : Word).toNat ≤ 32767 ∧ (32767 : Word).toNat ≤ 32767 ∧ (32768 : Word).toNat = 32768 + (0 : RegIndex).val ∧
      (32775 : Word).toNat = 32768 + (7 : RegIndex).val ∧ 32776 ≤ (32776 : Word).toNat ∧ 32776 ≤ (65535 : Word).toNat := by decide

/-- `pc` in the last cell. -/
def lastCell : State := { small 100 [] with pc := 99, mem := [(99, 17)] }

theorem witness_StepExecutesTheFetchedWords :
    (lastCell.runState = .running ∧ lastCell.pc.toNat < lastCell.memSize) ∧
    ((start [9, 32768, 1, 2]).runState = .running ∧ (start [9, 32768, 1, 2]).pc.toNat < (start [9, 32768, 1, 2]).memSize) := by decide
theorem witness_StepRunsTheInstructionAtPc :
    (Instr.jmp (.lit 2)).wf = true ∧ (small 2 [6, 2]).runState = .running ∧
      (small 2 [6, 2]).pc.toNat + (encode (.jmp (.lit 2))).length ≤ (small 2 [6, 2]).memSize ∧
      ∀ k < (encode (.jmp (.lit 2))).length,
        (small 2 [6, 2]).mem.read ((small 2 [6, 2]).pc.toNat + k) = (encode (.jmp (.lit 2))).getD k 0 := by decide
theorem witness_StepPastMemoryExhaustsTheProgram :
    ({ lastCell with pc := 100 }.runState = .running ∧ { lastCell with pc := 100 }.memSize ≤ { lastCell with pc := 100 }.pc.toNat) ∧
    ((small 0 []).runState = .running ∧ (small 0 []).memSize ≤ (small 0 []).pc.toNat) := by decide
theorem witness_StepHasANextStateExactlyWhenRunning :
    State.reset.runState = .running ∧ { State.reset with runState := .stopped .halted }.runState ≠ .running ∧
      { State.reset with runState := .faulted .divideByZero 7 0 }.runState ≠ .running := by decide
theorem witness_PlacedWordIsExecutedByTheNextStep :
    State.reset.mem.wf ∧ State.reset.pc.toNat + 3 < State.reset.memSize ∧
      (small 4 [1, 2, 3, 4]).mem.wf ∧ (small 4 [1, 2, 3, 4]).pc.toNat + 3 < (small 4 [1, 2, 3, 4]).memSize := by decide
theorem witness_TraceRecordsTheInstructionExecuted :
    (lastCell.runState = .running ∧ lastCell.pc.toNat < lastCell.memSize) ∧
    { lastCell with runState := .stopped .halted }.runState ≠ .running ∧
    { lastCell with pc := 100 }.memSize ≤ { lastCell with pc := 100 }.pc.toNat := by decide
theorem witness_StepIsThePseudocode : State.reset.runState = .running := by decide
theorem witness_NoopOnlyAdvances : 21 ≤ (21 : Word).toNat ∧ 21 ≤ (65535 : Word).toNat := by decide

theorem witness_SetCopiesTheValue :
    destOf (.reg 7) = some 7 ∧ busy.valueOf (.reg 7) = some 65535 ∧ busy.valueOf (.lit 32767) = some 32767 ∧
      firstBadWord [(.dest, .lit 5), (.value, .invalid 40000)] = some (.invalidDestination, 5) ∧
      firstBadWord [(.dest, .reg 0), (.value, .invalid 32776)] = some (.invalidOperand, 32776) := by decide
theorem witness_PushPutsTheValueOnTop :
    busy.valueOf (.reg 6) = some 40000 ∧ firstBadWord [(.value, .invalid 65535)] = some (.invalidOperand, 65535) ∧
      busy.params.stackDepth ≠ some busy.stack.length ∧
      { busy with params := ⟨32768, some 2⟩ }.params.stackDepth ≠ some { busy with params := ⟨32768, some 2⟩ }.stack.length ∧
      { busy with params := ⟨32768, some 1⟩ }.params.stackDepth = some { busy with params := ⟨32768, some 1⟩ }.stack.length ∧
      { State.reset with params := ⟨32768, some 0⟩ }.params.stackDepth = some State.reset.stack.length := by decide
theorem witness_PopMovesTheTopIntoARegister :
    destOf (.reg 0) = some 0 ∧ State.reset.stack = [] ∧ busy.stack = 9 :: [] ∧
      firstBadWord [(.dest, .invalid 32776)] = some (.invalidDestination, 32776) := by decide

/-- The hypotheses of a `FourWordRule` and of its checks, at its three bad words. -/
theorem witness_four_word_rule :
    destOf (.reg 7) = some 7 ∧ busy.valueOf (.reg 7) = some 65535 ∧ busy.valueOf (.reg 0) = some 0 ∧
      busy.valueOf (.lit 32767) = some 32767 ∧
      firstBadWord [(.dest, .lit 32767), (.value, .invalid 32776), (.value, .invalid 65535)] = some (.invalidDestination, 32767) ∧
      firstBadWord [(.dest, .reg 7), (.value, .invalid 32776), (.value, .invalid 65535)] = some (.invalidOperand, 32776) ∧
      firstBadWord [(.dest, .reg 0), (.value, .lit 0), (.value, .invalid 65535)] = some (.invalidOperand, 65535) := by decide
theorem witness_EqWritesOneWhenEqual : destOf (.reg 0) = some 0 ∧ busy.valueOf (.reg 6) = some 40000 ∧ busy.valueOf (.reg 6) = some 40000 := by
  decide
theorem witness_GtWritesOneWhenGreater : destOf (.reg 0) = some 0 ∧ busy.valueOf (.reg 7) = some 65535 ∧ busy.valueOf (.reg 6) = some 40000 := by
  decide
theorem witness_JmpLoadsPc : busy.valueOf (.reg 7) = some 65535 ∧ firstBadWord [(.value, .invalid 32776)] = some (.invalidOperand, 32776) := by
  decide
theorem witness_JtJumpsWhenNonZero :
    (busy.valueOf (.reg 3) = some 32768 ∧ busy.valueOf (.lit 100) = some 100) ∧ (busy.valueOf (.lit 0) = some 0 ∧ busy.valueOf (.lit 7) = some 7) ∧
      firstBadWord [(.value, .lit 0), (.value, .invalid 32776)] = some (.invalidOperand, 32776) ∧
      firstBadWord [(.value, .invalid 32777), (.value, .invalid 32776)] = some (.invalidOperand, 32777) := by decide
theorem witness_JfJumpsWhenZero :
    (busy.valueOf (.reg 0) = some 0 ∧ busy.valueOf (.lit 100) = some 100) ∧ (busy.valueOf (.reg 3) = some 32768 ∧ busy.valueOf (.lit 7) = some 7) ∧
      firstBadWord [(.value, .lit 1), (.value, .invalid 32776)] = some (.invalidOperand, 32776) := by decide
theorem witness_AddWrapsModulo32768 : destOf (.reg 7) = some 7 ∧ busy.valueOf (.reg 7) = some 65535 ∧ busy.valueOf (.lit 1) = some 1 := by decide
theorem witness_MultWrapsModulo32768 : destOf (.reg 7) = some 7 ∧ busy.valueOf (.reg 7) = some 65535 ∧ busy.valueOf (.reg 7) = some 65535 := by
  decide
theorem witness_ModIsTheRemainderOrDivideByZero :
    destOf (.reg 7) = some 7 ∧ busy.valueOf (.reg 7) = some 65535 ∧
      (busy.valueOf (.reg 0) = some 0 ∧ (0 : Word).toNat = 0) ∧
      (busy.valueOf (.lit 1) = some 1 ∧ (1 : Word).toNat ≠ 0) ∧ (busy.valueOf (.reg 3) = some 32768 ∧ (32768 : Word).toNat ≠ 0) ∧
      firstBadWord [(.dest, .reg 7), (.value, .lit 0), (.value, .invalid 65535)] = some (.invalidOperand, 65535) := by decide
theorem witness_AndIsBitwiseOn15Bits : destOf (.reg 2) = some 2 ∧ busy.valueOf (.reg 6) = some 40000 ∧ busy.valueOf (.reg 7) = some 65535 := by
  decide
theorem witness_OrIsBitwiseOn15Bits : destOf (.reg 7) = some 7 ∧ busy.valueOf (.reg 6) = some 40000 ∧ busy.valueOf (.lit 0) = some 0 := by decide
theorem witness_NotComplements15Bits :
    destOf (.reg 3) = some 3 ∧ busy.valueOf (.reg 6) = some 40000 ∧
      firstBadWord [(.dest, .reg 3), (.value, .invalid 40000)] = some (.invalidOperand, 40000) := by decide
theorem witness_AddOfTheInverseUndoesAdd :
    (0 < (1 : Literal).toNat ∧ (32767 : Literal).toNat = 32768 - (1 : Literal).toNat) ∧
    (0 < (32767 : Literal).toNat ∧ (1 : Literal).toNat = 32768 - (32767 : Literal).toNat) := by decide

theorem witness_RmemLoadsTheCell :
    destOf (.reg 7) = some 7 ∧ (small 50 []).valueOf (.lit 49) = some 49 ∧ (49 : Word).toNat < (small 50 []).memSize ∧
      (small 50 []).valueOf (.lit 50) = some 50 ∧ (small 50 []).memSize ≤ (50 : Word).toNat ∧
      firstBadWord [(.dest, .lit 0), (.value, .lit 50)] = some (.invalidDestination, 0) := by decide
theorem witness_WmemStoresOneCell :
    (small 50 [1, 0, 3]).mem.wf ∧ (small 50 [1, 0, 3]).valueOf (.lit 0) = some 0 ∧
      (small 50 [1, 0, 3]).valueOf (.lit 49) = some 49 ∧ (49 : Word).toNat < (small 50 [1, 0, 3]).memSize ∧
      (small 50 [1, 0, 3]).valueOf (.lit 50) = some 50 ∧ (small 50 [1, 0, 3]).memSize ≤ (50 : Word).toNat ∧
      firstBadWord [(.value, .lit 50), (.value, .invalid 65535)] = some (.invalidOperand, 65535) := by decide
theorem witness_StoredWordIsFetchedByTheNextStep :
    (small 4 [16, 3, 0]).mem.wf ∧ (small 4 [16, 3, 0]).runState = .running ∧ (small 4 [16, 3, 0]).pc.toNat + 3 < (small 4 [16, 3, 0]).memSize ∧
      (small 4 [16, 3, 0]).fetchInstr = .wmem (.lit 3) (.lit 0) ∧
      (small 4 [16, 3, 0]).valueOf (.lit 3) = some ((small 4 [16, 3, 0]).pc + 3) ∧ (small 4 [16, 3, 0]).valueOf (.lit 0) = some 0 := by
  decide

theorem witness_CallPushesTheReturnAddress :
    lastCell.valueOf (.lit 0) = some 0 ∧ firstBadWord [(.value, .invalid 32776)] = some (.invalidOperand, 32776) ∧
      lastCell.params.stackDepth ≠ some lastCell.stack.length ∧
      { lastCell with params := ⟨100, some 0⟩ }.params.stackDepth = some { lastCell with params := ⟨100, some 0⟩ }.stack.length := by decide
theorem witness_RetPopsPcOrHalts : State.reset.stack = [] ∧ busy.stack = 9 :: [] := by decide
theorem witness_RetResumesAfterTheCall :
    (small 3 [17, 2, 18]).runState = .running ∧ (small 3 [17, 2, 18]).pc.toNat + 1 < (small 3 [17, 2, 18]).memSize ∧
      (small 3 [17, 2, 18]).mem.read (small 3 [17, 2, 18]).pc.toNat = 17 ∧
      (small 3 [17, 2, 18]).mem.read ((small 3 [17, 2, 18]).pc.toNat + 1) = 2 ∧
      (small 3 [17, 2, 18]).valueOf (decodeOperand 2) = some 2 ∧ (2 : Word).toNat < (small 3 [17, 2, 18]).memSize ∧
      (small 3 [17, 2, 18]).mem.read (2 : Word).toNat = 18 ∧
      (small 3 [17, 2, 18]).params.stackDepth ≠ some (small 3 [17, 2, 18]).stack.length := by decide
theorem witness_PopsReturnPushesInReverseOrder :
    busy.params.stackDepth = none ∧ busy.valueOf (.reg 7) = some 65535 ∧ busy.valueOf (.lit 0) = some 0 := by decide

/-- A state whose Input Source has a character, then a wait, then a last character. -/
def fed : State := { busy with input := [.char 255, .notYet, .char 0] }

theorem witness_OutAppendsOneCharacter :
    busy.valueOf (.reg 6) = some 40000 ∧ firstBadWord [(.value, .invalid 32776)] = some (.invalidOperand, 32776) := by decide
theorem witness_InTakesOneCharacterOrWaitsOrStops :
    destOf (.reg 7) = some 7 ∧ fed.input = .char 255 :: [.notYet, .char 0] ∧
      ({ busy with inputTail := .waits }.input = [] ∧ { busy with inputTail := .waits }.inputTail = .waits) ∧
      (busy.input = [] ∧ busy.inputTail = .ends) ∧
      firstBadWord [(.dest, .lit 5)] = some (.invalidDestination, 5) := by decide
theorem witness_ListedWaitHoldsTheCoreOnce :
    destOf (.reg 7) = some 7 ∧ { fed with input := [.notYet, .char 0] }.input = .notYet :: [.char 0] ∧
      { fed with input := [.notYet, .notYet] }.input = .notYet :: [.notYet] ∧
      ({ fed with input := [.notYet], inputTail := .waits }.input = .notYet :: [] ∧
        { fed with input := [.notYet], inputTail := .waits }.inputTail = .waits) ∧
      ({ fed with input := [.notYet] }.input = .notYet :: [] ∧ { fed with input := [.notYet] }.inputTail = .ends) := by decide

theorem witness_PcFollowsTheAdvanceTable :
    busy.runState = .running ∧
    (∃ t, exec (.jt (.reg 3) (.lit 100)) busy = .next t ∧ t.runState = .running) ∧
    (∃ t, exec (.jf (.reg 3) (.lit 100)) busy = .next t ∧ t.runState = .running) ∧
    (∃ t, exec (.jmp (.lit 0)) busy = .next t ∧ t.runState = .running) ∧
    (∃ t, exec (.call (.lit 100)) busy = .next t ∧ t.runState = .running) ∧
    (∃ t, exec .ret busy = .next t ∧ t.runState = .running) ∧
    (∃ t, exec (.inp (.reg 0)) fed = .next t ∧ t.runState = .running) ∧
    (∃ t, exec (.pop (.reg 0)) busy = .next t ∧ t.runState = .running) ∧
    (∃ t, exec (.set (.reg 0) (.lit 0)) busy = .next t ∧ t.runState = .running) ∧
    (∃ t, exec (.add (.reg 0) (.lit 0) (.lit 0)) busy = .next t ∧ t.runState = .running) ∧
    (∃ t, exec (.noop 21) busy = .next t ∧ t.runState = .running) ∧
    (∃ t, exec .halt busy = .next t ∧ t.runState ≠ .running) := by
  refine ⟨rfl, ⟨_, rfl, rfl⟩, ⟨_, rfl, rfl⟩, ⟨_, rfl, rfl⟩, ⟨_, rfl, rfl⟩, ⟨_, rfl, rfl⟩, ⟨_, rfl, rfl⟩, ⟨_, rfl, rfl⟩, ⟨_, rfl, rfl⟩,
    ⟨_, rfl, rfl⟩, ⟨_, rfl, rfl⟩, _, rfl, ?_⟩
  decide
theorem witness_FixedAdvanceNeverWraps :
    ∃ t, step { small 32768 [] with pc := 32767, mem := [(32767, 65535)] } = .next t ∧ t.runState = .running ∧
      { small 32768 [] with pc := 32767, mem := [(32767, 65535)] }.wordAt 0 ∉ [6, 7, 8, 17, 18] := ⟨_, rfl, rfl, by decide⟩
theorem witness_OnlyTheDestinationRegisterChanges :
    ∃ t, exec (.inp (.reg 7)) fed = .next t ∧ t.regs[(7 : RegIndex)] ≠ fed.regs[(7 : RegIndex)] := ⟨_, rfl, by decide⟩
theorem witness_OnlyWmemChangesMemory :
    busy.mem.wf ∧ ∃ t, exec (.wmem (.lit 32767) (.reg 7)) busy = .next t ∧ t.mem.read 32767 ≠ busy.mem.read 32767 :=
  ⟨by decide, _, rfl, by decide⟩
theorem witness_OnlyFourInstructionsReachTheStack :
    (∃ t, exec (.push (.lit 3)) busy = .next t ∧ t.stack ≠ busy.stack) ∧ (∃ t, exec (.call (.lit 3)) busy = .next t ∧ t.stack ≠ busy.stack) ∧
    (∃ t, exec (.pop (.reg 3)) busy = .next t ∧ t.stack ≠ busy.stack) ∧ (∃ t, exec .ret busy = .next t ∧ t.stack ≠ busy.stack) :=
  ⟨⟨_, rfl, by decide⟩, ⟨_, rfl, by decide⟩, ⟨_, rfl, by decide⟩, _, rfl, by decide⟩
theorem witness_ChannelsMoveInProgramOrder :
    (∃ t, exec (.out (.reg 6)) fed = .next t ∧ t.output ≠ fed.output) ∧ (∃ t, exec (.inp (.reg 0)) fed = .next t ∧ t.input ≠ fed.input) :=
  ⟨⟨_, rfl, by decide⟩, _, rfl, by decide⟩
theorem witness_OutputNeverInfluencesTheCore :
    ∃ t, step { start [19, 65] with output := [72] } = .next t ∧ t.output ≠ [72] := ⟨_, rfl, by decide⟩

theorem witness_EndingStepWritesRunStateOnly :
    (∃ t, step (start [0]) = .next t ∧ t.runState ≠ .running) ∧
    (∃ t, step (start [15, 32768, 32776]) = .next t ∧ t.runState = .faulted .invalidOperand 0 32776) :=
  ⟨⟨_, rfl, by decide⟩, _, rfl, rfl⟩
theorem witness_EndOfRunIsExplained :
    (∃ t, step (start [0]) = .next t ∧ t.runState = .stopped .halted) ∧
    (∃ t, step { lastCell with pc := 100 } = .next t ∧ t.runState = .stopped .programExhausted) ∧
    (∃ t, step (start [20, 32768]) = .next t ∧ t.runState = .stopped .inputExhausted) ∧
    (∃ t, step (start [4, 32768, 0, 32776]) = .next t ∧ t.runState = .faulted .invalidOperand 0 32776) ∧
    (∃ t, step (start [1]) = .next t ∧ t.runState = .faulted .invalidDestination 0 0) ∧
    (∃ t, step (small 50 [16, 50, 1]) = .next t ∧ t.runState = .faulted .memoryOutOfBounds 0 50) ∧
    (∃ t, step (start [3, 32768]) = .next t ∧ t.runState = .faulted .stackUnderflow 0 0) ∧
    (∃ t, step (start [11, 32768, 5, 0]) = .next t ∧ t.runState = .faulted .divideByZero 0 0) ∧
    (∃ t, step { start [17, 0] with params := ⟨32768, some 0⟩ } = .next t ∧ t.runState = .faulted .stackOverflow 0 0) := by
  refine ⟨⟨_, rfl, rfl⟩, ⟨_, rfl, rfl⟩, ⟨_, rfl, rfl⟩, ⟨_, rfl, rfl⟩, ⟨_, rfl, rfl⟩, ⟨_, rfl, rfl⟩, ⟨_, rfl, rfl⟩, ⟨_, rfl, rfl⟩, _, rfl, rfl⟩
theorem witness_EndedCoreReachesOnlyItself :
    { start [0] with runState := .stopped .halted }.ended = true ∧
      Reaches { start [0] with runState := .stopped .halted } { start [0] with runState := .stopped .halted } := ⟨rfl, .refl⟩
theorem witness_JumpToSelfRunsForEver :
    (small 2 [6, 0]).runState = .running ∧ (small 2 [6, 0]).pc.toNat + 1 < (small 2 [6, 0]).memSize ∧
      (small 2 [6, 0]).mem.read (small 2 [6, 0]).pc.toNat = 6 ∧
      (small 2 [6, 0]).mem.read ((small 2 [6, 0]).pc.toNat + 1) = (small 2 [6, 0]).pc := by decide
theorem witness_HeldCoreStaysRunning :
    { small 2 [20, 32775] with inputTail := .waits }.runState = .running ∧
      { small 2 [20, 32775] with inputTail := .waits }.pc.toNat < { small 2 [20, 32775] with inputTail := .waits }.memSize ∧
      { small 2 [20, 32775] with inputTail := .waits }.fetchInstr = .inp (.reg 7) ∧
      { small 2 [20, 32775] with inputTail := .waits }.input = [] ∧
      { small 2 [20, 32775] with inputTail := .waits }.inputTail = .waits := by decide
theorem witness_RunStateCodesTellThemApart :
    (RunState.faulted .stackOverflow 7 1).code.getLsbD 4 = true ∧ RunState.running.code = 0 ∧
      (RunState.faulted .divideByZero 7 0).code = (RunState.faulted .divideByZero 8 0).code := by decide

theorem witness_BootGivesTheResetState :
    ([1, 2] : List Word).length ≤ (⟨2, none⟩ : Params).memSize.val ∧ (⟨1, none⟩ : Params).memSize.val < ([1, 2] : List Word).length ∧
      ([] : List Word).length ≤ (⟨0, none⟩ : Params).memSize.val := by decide
theorem witness_ImageBytesAreLittleEndian : ([1] : List Byte).length % 2 = 1 ∧ ([1, 128] : List Byte).length % 2 = 0 := by decide
theorem witness_InvariantIsKeptByEveryStep :
    State.reset.Inv ∧ (∃ t, step State.reset = .next t) ∧
      { start [2, 7] with params := ⟨32768, some 1⟩ }.Inv ∧ (∃ t, step { start [2, 7] with params := ⟨32768, some 1⟩ } = .next t) :=
  ⟨by decide, ⟨_, rfl⟩, by decide, _, rfl⟩

end Sys2Proof.Tests
end

/-! Proofs of the statements about the state (10_state.md): what a step comes to, the inversion of every instruction, the frames of
registers, memory, stack and `pc` derived from it, and reset. -/

namespace Sys2Proof.Machine

/-! ### The beginning of a step -/

theorem State.startStep_of_inside {s : State} (hr : s.runState = .running) (hp : s.pc.toNat < s.memSize) :
    s.startStep = .execute s.fetchInstr := by
  simp only [State.startStep, hr, if_pos hp]

theorem State.startStep_of_past_end {s : State} (hr : s.runState = .running) (hp : s.memSize ≤ s.pc.toNat) :
    s.startStep = .over (.next (s.stop .programExhausted)) := by
  simp only [State.startStep, hr, if_neg (Nat.not_lt.mpr hp)]

theorem State.startStep_of_not_running {s : State} (hr : s.runState ≠ .running) : s.startStep = .over (.fault .notRunning) := by
  unfold State.startStep
  split
  · exact absurd ‹_› hr
  · rfl

/-- Inside memory the step of a running core is the effect of the fetched instruction (R60). -/
theorem step_of_inside {s : State} (hr : s.runState = .running) (hp : s.pc.toNat < s.memSize) :
    step s = exec s.fetchInstr s := by
  simp only [step, State.startStep_of_inside hr hp]

theorem step_of_past_end {s : State} (hr : s.runState = .running) (hp : s.memSize ≤ s.pc.toNat) :
    step s = .next (s.stop .programExhausted) := by
  simp only [step, State.startStep_of_past_end hr hp]

theorem step_of_not_running {s : State} (hr : s.runState ≠ .running) : step s = .fault .notRunning := by
  simp only [step, State.startStep_of_not_running hr]

/-! ### Fetch and opcode -/

/-- The decoder keeps the opcode word whole, a no-op's too (R63, R64). -/
@[simp] theorem decodeWords_opcode (op w1 w2 w3 : Word) : (decodeWords op w1 w2 w3).opcode = op := by
  unfold decodeWords
  split
  case h_22 => rfl
  all_goals exact (BitVec.eq_of_toNat_eq ‹_›).symm

theorem State.wordAt_zero {s : State} (hp : s.pc.toNat < s.memSize) : s.wordAt 0 = (s.mem.read s.pc.toNat).toNat :=
  congrArg BitVec.toNat (if_pos hp)

theorem State.fetchInstr_opcode {s : State} (hp : s.pc.toNat < s.memSize) : s.fetchInstr.opcode.toNat = s.wordAt 0 := by
  rw [State.wordAt_zero hp, State.fetchInstr, decodeWords_opcode]

/-! ### Every instruction answers a next state -/

theorem State.finish_next (s : State) (r : Except Raised State) : ∃ t, s.finish r = .next t := by
  cases r with
  | ok t => exact ⟨t, rfl⟩
  | error e => exact ⟨s.raise e, rfl⟩

/-- A fault of the core is a state too, so no instruction is without a next state (R22, R60). -/
theorem exec_next (i : Instr) (s : State) : ∃ t, exec i s = .next t := by
  cases i with
  | halt => exact ⟨_, rfl⟩
  | noop op => exact ⟨_, rfl⟩
  | ret =>
    rcases execRet_cases s with ⟨_, he⟩ | ⟨v, rest, _, he⟩
    · exact ⟨_, he⟩
    · exact ⟨_, he⟩
  | _ => exact s.finish_next _

/-! ### What each instruction can lead to -/

/-- `Effect`, told apart by instruction: the next states an instruction begun in `s` can have, with the operand values, the guards and
the results that go with them. A fault is one case for all instructions (R164). -/
inductive InstrEffect (s : State) : Instr → State → Prop where
  | fault (i : Instr) (e : Raised) : InstrEffect s i (s.raise e)
  | halt : InstrEffect s .halt (s.stop .halted)
  | noop (op : Word) : InstrEffect s (.noop op) (s.advance 1)
  | set {r a v} (ha : s.valueOf a = some v) : InstrEffect s (.set (.reg r) a) ((s.writeReg r v).advance 3)
  | not {r a v} (ha : s.valueOf a = some v) : InstrEffect s (.not (.reg r) a) ((s.writeReg r (notResult v)).advance 3)
  | eq {r a b v w} (ha : s.valueOf a = some v) (hb : s.valueOf b = some w) :
      InstrEffect s (.eq (.reg r) a b) ((s.writeReg r (eqResult v w)).advance 4)
  | gt {r a b v w} (ha : s.valueOf a = some v) (hb : s.valueOf b = some w) :
      InstrEffect s (.gt (.reg r) a b) ((s.writeReg r (gtResult v w)).advance 4)
  | add {r a b v w} (ha : s.valueOf a = some v) (hb : s.valueOf b = some w) :
      InstrEffect s (.add (.reg r) a b) ((s.writeReg r (addResult v w)).advance 4)
  | mult {r a b v w} (ha : s.valueOf a = some v) (hb : s.valueOf b = some w) :
      InstrEffect s (.mult (.reg r) a b) ((s.writeReg r (multResult v w)).advance 4)
  | mod {r a b v w} (ha : s.valueOf a = some v) (hb : s.valueOf b = some w) (hz : w ≠ 0) :
      InstrEffect s (.mod (.reg r) a b) ((s.writeReg r (modResult v w)).advance 4)
  | and {r a b v w} (ha : s.valueOf a = some v) (hb : s.valueOf b = some w) :
      InstrEffect s (.and (.reg r) a b) ((s.writeReg r (andResult v w)).advance 4)
  | or {r a b v w} (ha : s.valueOf a = some v) (hb : s.valueOf b = some w) :
      InstrEffect s (.or (.reg r) a b) ((s.writeReg r (orResult v w)).advance 4)
  | jmp {a target} (ha : s.valueOf a = some target) : InstrEffect s (.jmp a) (s.jump target)
  | jtTaken {a b c target} (ha : s.valueOf a = some c) (hb : s.valueOf b = some target) (hc : c ≠ 0) :
      InstrEffect s (.jt a b) (s.jump target)
  | jtUntaken {a b target} (ha : s.valueOf a = some 0) (hb : s.valueOf b = some target) : InstrEffect s (.jt a b) (s.advance 3)
  | jfTaken {a b target} (ha : s.valueOf a = some 0) (hb : s.valueOf b = some target) : InstrEffect s (.jf a b) (s.jump target)
  | jfUntaken {a b c target} (ha : s.valueOf a = some c) (hb : s.valueOf b = some target) (hc : c ≠ 0) :
      InstrEffect s (.jf a b) (s.advance 3)
  | rmem {r a addr} (ha : s.valueOf a = some addr) (hm : addr.toNat < s.memSize) :
      InstrEffect s (.rmem (.reg r) a) ((s.writeReg r (s.mem.read addr.toNat)).advance 3)
  | wmem {a b addr v} (ha : s.valueOf a = some addr) (hb : s.valueOf b = some v) (hm : addr.toNat < s.memSize) :
      InstrEffect s (.wmem a b) (({ s with mem := s.mem.write addr.toNat v } : State).advance 3)
  | push {a v} (ha : s.valueOf a = some v) (hroom : s.params.stackDepth ≠ some s.stack.length) :
      InstrEffect s (.push a) { s with stack := v :: s.stack, pc := s.pc + 2 }
  | pop {r v rest} (hs : s.stack = v :: rest) :
      InstrEffect s (.pop (.reg r)) ((({ s with stack := rest } : State).writeReg r v).advance 2)
  | call {a target} (ha : s.valueOf a = some target) (hroom : s.params.stackDepth ≠ some s.stack.length) :
      InstrEffect s (.call a) { s with stack := (s.pc + 2) :: s.stack, pc := target }
  | ret {target rest} (hs : s.stack = target :: rest) : InstrEffect s .ret (({ s with stack := rest } : State).jump target)
  | retHalts (hs : s.stack = []) : InstrEffect s .ret (s.stop .halted)
  | out {a v} (ha : s.valueOf a = some v) : InstrEffect s (.out a) ((s.outEmit (v.setWidth 8)).advance 2)
  | inChar {r c rest} (hi : s.input = .char c :: rest) :
      InstrEffect s (.inp (.reg r)) ((({ s with input := rest } : State).writeReg r (c.setWidth 16)).advance 2)
  | inNotYet {r rest} (hi : s.input = .notYet :: rest) : InstrEffect s (.inp (.reg r)) { s with input := rest }
  | inWaits {r} (hi : s.input = []) (ht : s.inputTail = .waits) : InstrEffect s (.inp (.reg r)) s
  | inEnds {r} (hi : s.input = []) (ht : s.inputTail = .ends) : InstrEffect s (.inp (.reg r)) (s.stop .inputExhausted)

section
variable {s t t' : State} {i : Instr} {d a b : Operand}

/-- The one next state of an instruction is known as soon as one is found. -/
theorem InstrEffect.of_next {r : Result} (h : r = .next t) (h' : r = .next t') (he : InstrEffect s i t') :
    InstrEffect s i t := by
  obtain rfl : t' = t := by simpa using h'.symm.trans h
  exact he

theorem InstrEffect.of_unary {f : Word → Word} (h : s.unary f d a = .next t)
    (he : ∀ r v, d = .reg r → s.valueOf a = some v → InstrEffect s i ((s.writeReg r (f v)).advance 3)) : InstrEffect s i t := by
  rcases s.unary_cases f d a with ⟨e, hu⟩ | ⟨r, v, hd, ha, hu⟩
  · exact .of_next h hu (.fault i e)
  · exact .of_next h hu (he r v hd ha)

theorem InstrEffect.of_binary {f : Word → Word → Word} (h : s.binary f d a b = .next t)
    (he : ∀ r v w, d = .reg r → s.valueOf a = some v → s.valueOf b = some w →
      InstrEffect s i ((s.writeReg r (f v w)).advance 4)) : InstrEffect s i t := by
  rcases s.binary_cases f d a b with ⟨e, hu⟩ | ⟨r, v, w, hd, ha, hb, hu⟩
  · exact .of_next h hu (.fault i e)
  · exact .of_next h hu (he r v w hd ha hb)

theorem InstrEffect.of_branch {taken : Word → Bool} (h : s.branch taken a b = .next t)
    (hjump : ∀ c target, s.valueOf a = some c → s.valueOf b = some target → taken c = true → InstrEffect s i (s.jump target))
    (hstay : ∀ c target, s.valueOf a = some c → s.valueOf b = some target → taken c = false → InstrEffect s i (s.advance 3)) :
    InstrEffect s i t := by
  rcases s.branch_cases taken a b with ⟨e, hu⟩ | ⟨c, target, ha, hb, hu⟩
  · exact .of_next h hu (.fault i e)
  · refine .of_next h hu ?_
    cases hc : taken c with
    | true => exact hjump c target ha hb hc
    | false => exact hstay c target ha hb hc

/-- Every next state of an instruction is one of those named for it. -/
theorem exec_instrEffect (h : exec i s = .next t) : InstrEffect s i t := by
  cases i with
  | halt => exact .of_next h rfl .halt
  | noop op => exact .of_next h rfl (.noop op)
  | set d a => exact .of_unary h (by rintro r v rfl ha; exact .set ha)
  | not d a => exact .of_unary h (by rintro r v rfl ha; exact .not ha)
  | eq d a b => exact .of_binary h (by rintro r v w rfl ha hb; exact .eq ha hb)
  | gt d a b => exact .of_binary h (by rintro r v w rfl ha hb; exact .gt ha hb)
  | add d a b => exact .of_binary h (by rintro r v w rfl ha hb; exact .add ha hb)
  | mult d a b => exact .of_binary h (by rintro r v w rfl ha hb; exact .mult ha hb)
  | and d a b => exact .of_binary h (by rintro r v w rfl ha hb; exact .and ha hb)
  | or d a b => exact .of_binary h (by rintro r v w rfl ha hb; exact .or ha hb)
  | mod d a b =>
    rcases execMod_cases d a b s with ⟨e, he⟩ | ⟨r, v, w, rfl, ha, hb, hz, he⟩
    · exact .of_next h he (.fault _ e)
    · exact .of_next h he (.mod ha hb hz)
  | jmp a =>
    rcases execJmp_cases a s with ⟨e, he⟩ | ⟨v, ha, he⟩
    · exact .of_next h he (.fault _ e)
    · exact .of_next h he (.jmp ha)
  | jt a b =>
    refine .of_branch h (fun c target ha hb hc => .jtTaken ha hb (by simpa [nonZero] using hc)) fun c target ha hb hc => ?_
    obtain rfl : c = 0 := by simpa [nonZero] using hc
    exact .jtUntaken ha hb
  | jf a b =>
    refine .of_branch h (fun c target ha hb hc => ?_) fun c target ha hb hc => .jfUntaken ha hb (by simpa [isZero] using hc)
    obtain rfl : c = 0 := by simpa [isZero] using hc
    exact .jfTaken ha hb
  | rmem d a =>
    rcases execRmem_cases d a s with ⟨e, he⟩ | ⟨r, addr, rfl, ha, hm, he⟩
    · exact .of_next h he (.fault _ e)
    · exact .of_next h he (.rmem ha hm)
  | wmem a b =>
    rcases execWmem_cases a b s with ⟨e, he⟩ | ⟨addr, v, ha, hb, hm, he⟩
    · exact .of_next h he (.fault _ e)
    · exact .of_next h he (.wmem ha hb hm)
  | push a =>
    rcases execPush_cases a s with ⟨e, he⟩ | ⟨v, ha, hroom, he⟩
    · exact .of_next h he (.fault _ e)
    · exact .of_next h he (.push ha hroom)
  | pop d =>
    rcases execPop_cases d s with ⟨e, he⟩ | ⟨r, v, rest, rfl, hs, he⟩
    · exact .of_next h he (.fault _ e)
    · exact .of_next h he (.pop hs)
  | call a =>
    rcases execCall_cases a s with ⟨e, he⟩ | ⟨target, ha, hroom, he⟩
    · exact .of_next h he (.fault _ e)
    · exact .of_next h he (.call ha hroom)
  | ret =>
    rcases execRet_cases s with ⟨hs, he⟩ | ⟨target, rest, hs, he⟩
    · exact .of_next h he (.retHalts hs)
    · exact .of_next h he (.ret hs)
  | out a =>
    rcases execOut_cases a s with ⟨e, he⟩ | ⟨v, ha, he⟩
    · exact .of_next h he (.fault _ e)
    · exact .of_next h he (.out ha)
  | inp d =>
    rcases execIn_cases d s with
      ⟨e, he⟩ | ⟨r, rfl, ⟨c, rest, hi, he⟩ | ⟨rest, hi, he⟩ | ⟨hi, ht, he⟩ | ⟨hi, ht, he⟩⟩
    · exact .of_next h he (.fault _ e)
    · exact .of_next h he (.inChar hi)
    · exact .of_next h he (.inNotYet hi)
    · exact .of_next h he (.inWaits hi ht)
    · exact .of_next h he (.inEnds hi ht)

/-! ### The frame of each part of the state -/

/-- R12: the registers are as they were, or the one named by the destination word is written. -/
theorem InstrEffect.regs_frame (h : InstrEffect s i t) :
    t.regs = s.regs ∨
      ∃ r v, i.opcode.toNat ∈ destOpcodes ∧ i.operands.head? = some (.reg r) ∧ t.regs = s.regs.set r v := by
  cases h with
  | set | not | eq | gt | add | mult | mod | and | or | rmem | pop | inChar =>
    exact .inr ⟨_, _, by simp [Instr.opcode, destOpcodes], rfl, rfl⟩
  | _ => exact .inl rfl

/-- R34: memory is as it was, or a `wmem` inside memory has written its cell. -/
theorem InstrEffect.mem_frame (h : InstrEffect s i t) :
    t.mem = s.mem ∨
      ∃ a b addr v, i = .wmem a b ∧ s.valueOf a = some addr ∧ s.valueOf b = some v ∧ addr.toNat < s.memSize ∧
        t.mem = s.mem.write addr.toNat v := by
  cases h with
  | wmem ha hb hm => exact .inr ⟨_, _, _, _, rfl, ha, hb, hm, rfl⟩
  | _ => exact .inl rfl

/-- A running core that stops or faults keeps its `pc` (decisions D8, D12). -/
theorem InstrEffect.pc_of_ended (h : InstrEffect s i t) (hs : s.runState = .running) (ht : t.runState ≠ .running) :
    t.pc = s.pc := by
  cases h with
  | fault | halt | retHalts | inEnds => rfl
  | _ => exact absurd hs ht

/-- The fixed advance of R15: away from the jumps, `call` and `ret`, `pc` moves by the words of one instruction at most. -/
theorem InstrEffect.pc_fixed_advance (h : InstrEffect s i t) (hop : i.opcode.toNat ∉ [6, 7, 8, 17, 18]) :
    ∃ n ≤ 4, t.pc = s.pc + BitVec.ofNat 16 n := by
  cases h with
  | fault | halt | inNotYet | inWaits | inEnds => exact ⟨0, by decide, (BitVec.add_zero s.pc).symm⟩
  | noop => exact ⟨1, by decide, rfl⟩
  | push | pop | out | inChar => exact ⟨2, by decide, rfl⟩
  | set | not | rmem | wmem => exact ⟨3, by decide, rfl⟩
  | eq | gt | add | mult | mod | and | or => exact ⟨4, by decide, rfl⟩
  | jmp | jtTaken | jtUntaken | jfTaken | jfUntaken | call | ret | retHalts => simp [Instr.opcode] at hop

end

/-- Addresses of memory stay far enough below 65536 that a fixed advance is an addition of numbers (R16). -/
theorem State.pc_advance_toNat {s : State} (hp : s.pc.toNat < s.memSize) {n : Nat} (hn : n ≤ 4) :
    (s.pc + BitVec.ofNat 16 n).toNat = s.pc.toNat + n := by
  have hsize : s.memSize < 32769 := s.params.memSize.isLt
  rw [BitVec.toNat_add, BitVec.toNat_ofNat]
  omega

/-! ### Push and pop as rules -/

theorem exec_push_of_room {s : State} {a : Operand} {v : Word} (ha : s.valueOf a = some v)
    (hroom : s.params.stackDepth ≠ some s.stack.length) :
    exec (.push a) s = .next { s with stack := v :: s.stack, pc := s.pc + 2 } := by
  simp only [exec, execPush, State.val_of_valueOf ha, State.pushWord_of_room hroom, ok_bind]
  rfl

theorem exec_pop_of_cons {s : State} {v : Word} {rest : List Word} (r : RegIndex) (hs : s.stack = v :: rest) :
    exec (.pop (.reg r)) s = .next { s with stack := rest, regs := s.regs.set r v, pc := s.pc + 2 } := by
  simp only [exec, execPop, dst_reg, State.popWord_of_cons hs, ok_bind]
  rfl

/-- What an operand reads as depends on the registers alone (R55). -/
theorem State.valueOf_congr {s t : State} (h : t.regs = s.regs) (a : Operand) : t.valueOf a = s.valueOf a := by
  cases a <;> simp [State.valueOf, h]

/-! ### Reset -/

theorem boot_of_fits {params : Params} {image : List Word} (h : image.length ≤ params.memSize.val) (input : List InputEvent)
    (tail : InputTail) :
    boot params image input tail =
      .ok { State.reset with mem := Memory.writeList [] 0 image, params := params, input := input, inputTail := tail } :=
  if_pos h

theorem boot_of_too_long {params : Params} {image : List Word} (h : params.memSize.val < image.length) (input : List InputEvent)
    (tail : InputTail) : boot params image input tail = .error (.imageTooLong image.length params.memSize.val) :=
  if_neg (Nat.not_le.mpr h)

/-- The cells after reset: the image from address 0 and zeros above it (R25, decision D2). -/
theorem read_image (image : List Word) (k : Nat) : (Memory.writeList [] 0 image).read k = image.getD k 0 := by
  rw [Memory.read_writeList (m := []) reset_mem_wf]
  by_cases hk : k < image.length
  · rw [if_pos (by omega), Nat.sub_zero]
  · rw [if_neg (by omega), List.getD_eq_default _ _ (Nat.le_of_not_lt hk)]
    rfl

/-- Every state that reset builds meets the invariant. -/
theorem boot_inv {params : Params} {image : List Word} {input : List InputEvent} {tail : InputTail} {s : State}
    (h : boot params image input tail = .ok s) : s.Inv := by
  by_cases hfits : image.length ≤ params.memSize.val
  · rw [boot_of_fits hfits] at h
    obtain rfl := Except.ok.inj h
    refine ⟨Memory.writeList_wf reset_mem_wf 0 image, ?_, fun d _ => Nat.zero_le d⟩
    exact Memory.writeList_within (fun c hc => absurd hc List.not_mem_nil) image (by rwa [Nat.zero_add])
  · rw [boot_of_too_long (Nat.lt_of_not_le hfits)] at h
    cases h

end Sys2Proof.Machine

namespace Sys2Proof.Claims

open Sys2Proof.Machine

/-- Settles O11: the bounds check stops, every instruction answers a next state, and no other core begins a step. -/
theorem stepHasANextStateExactlyWhenRunning : Obligations.StepHasANextStateExactlyWhenRunning := by
  intro s
  refine ⟨fun hr => ?_, step_of_not_running⟩
  rcases Nat.lt_or_ge s.pc.toNat s.memSize with hp | hp
  · rw [step_of_inside hr hp]
    exact exec_next s.fetchInstr s
  · exact ⟨_, step_of_past_end hr hp⟩

/-- Settles O39: an unbounded stack always has room, and each pop finds the entry pushed last. -/
theorem popsReturnPushesInReverseOrder : Obligations.PopsReturnPushesInReverseOrder := by
  intro s a b va vb p q hdepth ha hb
  have hroom (n : Nat) : s.params.stackDepth ≠ some n := by simp [hdepth]
  refine ⟨_, _, _, exec_push_of_room ha (hroom _), exec_push_of_room (v := vb) ?_ (hroom _), exec_pop_of_cons p rfl,
    (exec_pop_of_cons q rfl).trans ?_⟩
  · rwa [State.valueOf_congr rfl]
  · have hpc : s.pc + 2 + 2 + 2 + 2 = s.pc + 8 := by simp only [BitVec.add_assoc]; rfl
    simp only [hpc]

/-- Settles O43, by the instruction's own effects. -/
theorem pcFollowsTheAdvanceTable : Obligations.PcFollowsTheAdvanceTable := by
  intro i s t hs h
  have he := exec_instrEffect h
  refine ⟨he.pc_of_ended hs, fun hrun => ?_⟩
  cases he with
  | fault | halt | retHalts | inEnds => simp at hrun
  | jmp ha => exact ha
  | jtTaken ha hb hc => exact ⟨_, ha, fun _ => hb, fun h0 => absurd h0 hc⟩
  | jtUntaken ha => exact ⟨0, ha, fun h0 => absurd rfl h0, fun _ => rfl⟩
  | jfTaken ha hb => exact ⟨0, ha, fun _ => hb, fun h0 => absurd rfl h0⟩
  | jfUntaken ha _ hc => exact ⟨_, ha, fun h0 => absurd h0 hc, fun _ => rfl⟩
  | call ha => exact ⟨ha, rfl⟩
  | ret hstack => exact hstack
  | inChar hi => exact .inl ⟨_, hi, rfl⟩
  | inNotYet hi => exact .inr ⟨by simp [hi], rfl⟩
  | inWaits hi => exact .inr ⟨by simp [hi], rfl⟩
  | _ => rfl

/-- Settles O44: `pc` is below `MEMSIZE`, hence at most 32767, before a fixed advance. -/
theorem fixedAdvanceNeverWraps : Obligations.FixedAdvanceNeverWraps := by
  intro s t h _ hop
  obtain ⟨_, ⟨_, rfl⟩ | ⟨hp, hexec⟩⟩ := step_next_cases h
  · simp
  · rw [← State.fetchInstr_opcode hp] at hop
    obtain ⟨n, hn, hpc⟩ := (exec_instrEffect hexec).pc_fixed_advance hop
    rw [hpc, State.pc_advance_toNat hp hn]
    omega

/-- Settles O45: a register other than the written one reads as before. -/
theorem onlyTheDestinationRegisterChanges : Obligations.OnlyTheDestinationRegisterChanges := by
  intro i s t r h hne
  rcases (exec_instrEffect h).regs_frame with hregs | ⟨r', v, hop, hhead, hregs⟩
  · exact absurd (by rw [hregs]) hne
  · have hr : r' = r := by
      by_contra hr
      exact hne (by simpa [hregs] using Vector.getElem_set_ne _ _ (Fin.val_ne_of_ne hr))
    exact ⟨hop, hr ▸ hhead⟩

/-- Settles O46, by the read after a write to canonical memory. -/
theorem onlyWmemChangesMemory : Obligations.OnlyWmemChangesMemory := by
  intro i s t k hwf h hne
  rcases (exec_instrEffect h).mem_frame with hmem | ⟨a, b, addr, v, hi, ha, hb, hm, hmem⟩
  · exact absurd (by rw [hmem]) hne
  · rw [hmem, Memory.read_write hwf] at hne ⊢
    have hk : k = addr.toNat := by
      by_contra hk
      exact hne (if_neg hk)
    exact ⟨a, b, addr, hi, ha, hk, by rw [if_pos hk, hb], hk ▸ hm⟩

/-- Settles O47, by the instruction's own effects. -/
theorem onlyFourInstructionsReachTheStack : Obligations.OnlyFourInstructionsReachTheStack := by
  intro i s t h hne
  cases exec_instrEffect h with
  | push ha => exact .inl ⟨_, _, rfl, ha, rfl⟩
  | call => exact .inr (.inl ⟨_, rfl, rfl⟩)
  | pop hs => exact .inr (.inr (.inl ⟨_, _, rfl, hs, by simp⟩))
  | ret hs => exact .inr (.inr (.inr ⟨rfl, hs⟩))
  | _ => exact absurd rfl hne

/-- Settles O56: the loaded cells read as the image, and every state that reset builds meets the invariant. -/
theorem bootGivesTheResetState : Obligations.BootGivesTheResetState := by
  intro params image input tail
  refine ⟨fun hfits => ?_, fun hlong => boot_of_too_long hlong input tail⟩
  have hboot := boot_of_fits hfits input tail
  refine ⟨_, hboot, fun r => ?_, rfl, rfl, rfl, rfl, rfl, rfl, rfl, fun k _ => read_image image k, fun k hk => ?_, boot_inv hboot⟩
  · simp [State.reset]
  · exact (read_image image k).trans (List.getD_eq_default _ _ hk)

/-- Settles O57: the empty image fits and lists no cell. -/
theorem resetIsBootOfTheEmptyImage : Obligations.ResetIsBootOfTheEmptyImage :=
  ⟨boot_of_fits (Nat.zero_le _) [] .ends, rfl, rfl⟩

/-- Settles O60: `State.reset` is one of the states that reset builds. -/
theorem invariantHoldsAtReset : Obligations.InvariantHoldsAtReset :=
  boot_inv resetIsBootOfTheEmptyImage.1

end Sys2Proof.Claims

/-! Proofs of the statements about memory and the channels (20_memory.md): the invariant of the state, a stored word fetched again, the
frames of the two channels, and the byte order of an image. -/

namespace Sys2Proof.Machine

/-! ### The invariant -/

section
variable {s t : State} {i : Instr}

/-- No instruction moves `MEMSIZE` or `STACK_DEPTH` (R32). -/
theorem Effect.params_eq (h : Effect s t) : t.params = s.params := by
  cases h <;> rfl

/-- Only a store, which is inside memory, and the two ends of the stack need an argument: a push finds room below a finite
`STACK_DEPTH`, a pop leaves fewer entries. -/
theorem Effect.inv (h : Effect s t) (hinv : s.Inv) : t.Inv := by
  obtain ⟨hwf, hwithin, hdepth⟩ := hinv
  cases h with
  | store addr v haddr => exact ⟨Memory.write_wf hwf _ v, Memory.write_within hwithin haddr v, hdepth⟩
  | pushed v target hroom =>
    refine ⟨hwf, hwithin, fun d hd => Nat.lt_of_le_of_ne (hdepth d hd) fun heq => hroom ?_⟩
    rw [heq]
    exact hd
  | popped _ v rest hs | returned v rest hs =>
    refine ⟨hwf, hwithin, fun d hd => Nat.le_trans ?_ (hdepth d hd)⟩
    rw [hs]
    exact Nat.le_succ rest.length
  | _ => exact ⟨hwf, hwithin, hdepth⟩

/-- A step is an effect of the core: the stop at the bounds check or what the fetched instruction does. -/
theorem step_effect (h : step s = .next t) : Effect s t := by
  obtain ⟨_, ⟨_, rfl⟩ | ⟨_, hexec⟩⟩ := step_next_cases h
  · exact .stop .programExhausted
  · exact exec_effect hexec

/-! ### The frame of each channel -/

/-- R151: the output stream is as it was, or an `out` has appended one character. -/
theorem InstrEffect.output_frame (h : InstrEffect s i t) :
    t.output = s.output ∨ ∃ a b, i = .out a ∧ t.output = s.output ++ [b] := by
  cases h with
  | out => exact .inr ⟨_, _, rfl, rfl⟩
  | _ => exact .inl rfl

/-- R155: the listed answers are as they were, or an `in` has taken the next one. -/
theorem InstrEffect.input_frame (h : InstrEffect s i t) :
    t.input = s.input ∨ ∃ d e, i = .inp d ∧ s.input = e :: t.input := by
  cases h with
  | inChar hi | inNotYet hi => exact .inr ⟨_, _, rfl, hi⟩
  | _ => exact .inl rfl

theorem InstrEffect.inputTail_eq (h : InstrEffect s i t) : t.inputTail = s.inputTail := by
  cases h <;> rfl

end

/-! ### Store and fetch -/

theorem exec_wmem_of_lt {s : State} {a b : Operand} {addr v : Word} (ha : s.valueOf a = some addr) (hb : s.valueOf b = some v)
    (hm : addr.toNat < s.memSize) :
    exec (.wmem a b) s = .next (({ s with mem := s.mem.write addr.toNat v } : State).advance 3) := by
  simp only [exec, execWmem, State.val_of_valueOf ha, State.val_of_valueOf hb, State.memWrite_of_lt hm, ok_bind]
  rfl

/-- R52, R60: the step of a running core whose `pc` stands at a known cell of memory. -/
theorem step_of_cell {s : State} {p : Nat} {v : Word} (hr : s.runState = .running) (hp : s.pc.toNat = p) (hm : p < s.memSize)
    (hv : s.mem.read p = v) :
    step s = exec (decodeWords v (s.fetchOperand (p + 1)) (s.fetchOperand (p + 2)) (s.fetchOperand (p + 3))) s := by
  subst hp hv
  exact step_of_inside hr hm

/-! ### The bytes of an image -/

/-- `hi` above `lo` is a number of 16 bits, so the word holds it whole. -/
theorem wordOfBytes_toNat (lo hi : Byte) : (BitVec.ofNat 16 (lo.toNat + 256 * hi.toNat)).toNat = lo.toNat + 256 * hi.toNat := by
  rw [BitVec.toNat_ofNat]
  omega

theorem wordsOfBytes_of_odd {bytes : List Byte} (h : bytes.length % 2 = 1) : wordsOfBytes bytes = .error .oddTrailingByte := by
  induction bytes using wordsOfBytes.induct with
  | case1 => simp at h
  | case2 => rfl
  | case3 lo hi rest ih =>
    rw [wordsOfBytes, ih ((Nat.add_mod_right rest.length 2).symm.trans h)]
    rfl

/-- R38: an even number of bytes is read two by two. -/
theorem wordsOfBytes_of_even {bytes : List Byte} (h : bytes.length % 2 = 0) :
    ∃ words, wordsOfBytes bytes = .ok words ∧ 2 * words.length = bytes.length ∧ ∀ k < words.length,
      (words.getD k 0).toNat = (bytes.getD (2 * k) 0).toNat + 256 * (bytes.getD (2 * k + 1) 0).toNat := by
  induction bytes using wordsOfBytes.induct with
  | case1 => exact ⟨[], rfl, rfl, fun k hk => absurd hk (Nat.not_lt_zero k)⟩
  | case2 => simp at h
  | case3 lo hi rest ih =>
    obtain ⟨words, hwords, hlength, hget⟩ := ih ((Nat.add_mod_right rest.length 2).symm.trans h)
    refine ⟨BitVec.ofNat 16 (lo.toNat + 256 * hi.toNat) :: words, ?_, ?_, fun k hk => ?_⟩
    · rw [wordsOfBytes, hwords]
      rfl
    · simp only [List.length_cons]
      omega
    · cases k with
      | zero => exact wordOfBytes_toNat lo hi
      | succ k => exact hget k (Nat.lt_of_succ_lt_succ hk)

end Sys2Proof.Machine

namespace Sys2Proof.Claims

open Sys2Proof.Machine

/-- Settles O59: every effect of a step keeps the invariant and the parameters. -/
theorem invariantIsKeptByEveryStep : Obligations.InvariantIsKeptByEveryStep :=
  fun _ _ hinv h => ⟨(step_effect h).inv hinv, (step_effect h).params_eq⟩

/-- Settles O35: the `wmem` leaves `pc` at the cell it has stored, so the next fetch reads the stored word there. -/
theorem storedWordIsFetchedByTheNextStep : Obligations.StoredWordIsFetchedByTheNextStep := by
  intro s a b v hwf hr hp hfetch ha hb
  have hpc : (s.pc + 3).toNat = s.pc.toNat + 3 := State.pc_advance_toNat (n := 3) (by omega) (by decide)
  have hcell : (s.mem.write (s.pc + 3).toNat v).read (s.pc.toNat + 3) = v := by
    rw [Memory.read_write hwf, if_pos hpc.symm]
  refine ⟨({ s with mem := s.mem.write (s.pc + 3).toNat v } : State).advance 3, ?_, step_of_cell hr hpc hp hcell⟩
  rw [step_of_inside hr (by omega), hfetch, exec_wmem_of_lt ha hb (by omega)]

/-- Settles O48, by the frame of each channel. -/
theorem channelsMoveInProgramOrder : Obligations.ChannelsMoveInProgramOrder :=
  fun _ _ _ h =>
    have he := exec_instrEffect h
    ⟨he.output_frame, he.input_frame, he.inputTail_eq⟩

/-- Settles O58, by the recursion of the loader over two bytes at a time. -/
theorem imageBytesAreLittleEndian : Obligations.ImageBytesAreLittleEndian :=
  fun _ => ⟨wordsOfBytes_of_odd, wordsOfBytes_of_even⟩

end Sys2Proof.Claims

/-! Proofs of the statements about the encoding (30_encoding.md): the classes of an operand word, encoder and decoder undone by each
other, the rows of the opcode map, and the step as the effect of the words at `pc`. -/

namespace Sys2Proof.Machine

/-! ### The classes of an operand word -/

theorem decodeOperand_of_le {w : Word} (h : w.toNat ≤ 32767) : decodeOperand w = .lit (w.setWidth 15) := if_pos h

theorem decodeOperand_of_register {w : Word} {r : RegIndex} (h : w.toNat = 32768 + r.val) : decodeOperand w = .reg r := by
  have hr : r.val < 8 := r.isLt
  have hindex : w.toNat - 32768 = r.val := by omega
  rw [decodeOperand, if_neg (by omega), dif_pos (by omega)]
  exact congrArg Operand.reg (Fin.ext hindex)

theorem decodeOperand_of_ge {w : Word} (h : 32776 ≤ w.toNat) : decodeOperand w = .invalid w := by
  rw [decodeOperand, if_neg (by omega), dif_neg (by omega)]

/-- R54: every word is in one of the three classes. -/
theorem operandWord_cases (w : Word) :
    w.toNat ≤ 32767 ∨ (∃ r : RegIndex, w.toNat = 32768 + r.val) ∨ 32776 ≤ w.toNat := by
  by_cases hreg : 32768 ≤ w.toNat ∧ w.toNat ≤ 32775
  · exact .inr (.inl ⟨⟨w.toNat - 32768, by omega⟩, by simp only; omega⟩)
  · omega

/-- A word of the literal class is the value its 15 bits hold. -/
theorem literal_toNat {w : Word} (h : w.toNat ≤ 32767) : (w.setWidth 15).toNat = w.toNat := by
  rw [BitVec.toNat_setWidth]
  omega

theorem literal_setWidth {w : Word} (h : w.toNat ≤ 32767) : (w.setWidth 15).setWidth 16 = w := by
  apply BitVec.eq_of_toNat_eq
  rw [BitVec.toNat_setWidth, literal_toNat h]
  omega

theorem registerWord_toNat (r : RegIndex) : (encodeOperand (.reg r)).toNat = 32768 + r.val := by
  simp only [encodeOperand, BitVec.toNat_ofNat]
  omega

theorem decodeOperand_wf (w : Word) : (decodeOperand w).wf = true := by
  rcases operandWord_cases w with h | ⟨r, h⟩ | h
  · rw [decodeOperand_of_le h]
    rfl
  · rw [decodeOperand_of_register h]
    rfl
  · rw [decodeOperand_of_ge h]
    exact decide_eq_true h

@[simp] theorem encodeOperand_decodeOperand (w : Word) : encodeOperand (decodeOperand w) = w := by
  rcases operandWord_cases w with h | ⟨r, h⟩ | h
  · rw [decodeOperand_of_le h]
    exact literal_setWidth h
  · rw [decodeOperand_of_register h]
    exact BitVec.eq_of_toNat_eq ((registerWord_toNat r).trans h.symm)
  · rw [decodeOperand_of_ge h]
    rfl

theorem decodeOperand_encodeOperand {o : Operand} (h : o.wf = true) : decodeOperand (encodeOperand o) = o := by
  cases o with
  | lit v =>
    have hv : (v.setWidth 16).toNat = v.toNat := by
      rw [BitVec.toNat_setWidth]
      omega
    rw [encodeOperand, decodeOperand_of_le (by omega)]
    exact congrArg Operand.lit (BitVec.eq_of_toNat_eq ((literal_toNat (by omega)).trans hv))
  | reg r => exact decodeOperand_of_register (registerWord_toNat r)
  | invalid w => exact decodeOperand_of_ge (of_decide_eq_true h)

/-! ### The decoder on the four candidate words -/

/-- R63: whatever words follow it, an opcode word of 21 or more is the no-op. -/
theorem decodeWords_of_ge {op : Word} (h : 21 ≤ op.toNat) (w1 w2 w3 : Word) : decodeWords op w1 w2 w3 = .noop op := by
  unfold decodeWords
  split
  case h_22 => rfl
  all_goals omega

theorem decodeWords_wf (op w1 w2 w3 : Word) : (decodeWords op w1 w2 w3).wf = true := by
  by_cases h : 21 ≤ op.toNat
  · rw [decodeWords_of_ge h]
    exact decide_eq_true h
  · unfold decodeWords
    split
    case h_22 =>
      simp only [imp_false] at *
      omega
    all_goals simp only [Instr.wf, decodeOperand_wf, Bool.and_self]

/-- R62: the operands are the first candidate words, in memory order. -/
theorem decodeWords_operands (op w1 w2 w3 : Word) :
    (decodeWords op w1 w2 w3).operands <+: [w1, w2, w3].map decodeOperand := by
  unfold decodeWords
  split <;> simp [Instr.operands]

/-- The decoded instruction's words are the first of the four words. -/
theorem encode_decodeWords (op w1 w2 w3 : Word) : encode (decodeWords op w1 w2 w3) <+: [op, w1, w2, w3] := by
  have h := (decodeWords_operands op w1 w2 w3).map encodeOperand
  rw [encode, decodeWords_opcode, List.cons_prefix_cons]
  exact ⟨rfl, by simpa using h⟩

theorem Instr.operands_wf {i : Instr} (hwf : i.wf = true) : ∀ o ∈ i.operands, o.wf = true := by
  cases i <;> simp_all [Instr.wf, Instr.operands]

/-- An instruction is what its opcode word and its operands decode to. -/
theorem decodeWords_of_operands {i : Instr} {w1 w2 w3 : Word} (hwf : i.wf = true)
    (hops : i.operands <+: [w1, w2, w3].map decodeOperand) : decodeWords i.opcode w1 w2 w3 = i := by
  cases i with
  | noop op => exact decodeWords_of_ge (of_decide_eq_true hwf) w1 w2 w3
  | _ =>
    simp only [Instr.operands, List.map_cons, List.map_nil, List.cons_prefix_cons] at hops
    simp [decodeWords, Instr.opcode, hops]

/-- A well-formed instruction is read back wherever its words are the first of the four words. -/
theorem decodeWords_of_isPrefix {i : Instr} {op w1 w2 w3 : Word} (hwf : i.wf = true) (h : encode i <+: [op, w1, w2, w3]) :
    decodeWords op w1 w2 w3 = i := by
  obtain ⟨rfl, hwords⟩ := List.cons_prefix_cons.mp h
  have hops : (i.operands.map encodeOperand).map decodeOperand = i.operands := by
    rw [List.map_map]
    exact (List.map_congr_left fun o ho => decodeOperand_encodeOperand (Instr.operands_wf hwf o ho)).trans (List.map_id _)
  exact decodeWords_of_operands hwf (hops ▸ hwords.map decodeOperand)

/-! ### Length -/

theorem instrLength_pos (op : Word) : 1 ≤ instrLength op := by
  unfold instrLength
  split <;> decide

theorem instrLength_le (op : Word) : instrLength op ≤ 4 := by
  unfold instrLength
  split <;> decide

/-- R65: a well-formed instruction has the length its opcode word tells. -/
theorem encode_length {i : Instr} (hwf : i.wf = true) : (encode i).length = instrLength i.opcode := by
  cases i with
  | noop op => exact Laws.EncodingLength.noop op hwf
  | _ => rfl

theorem encode_length_le {i : Instr} (hwf : i.wf = true) : (encode i).length ≤ 4 :=
  encode_length hwf ▸ instrLength_le i.opcode

theorem Instr.operands_length (i : Instr) : i.operands.length + 1 = (encode i).length := by
  rw [encode, List.length_cons, List.length_map]

/-! ### The opcode map -/

/-- The row of the opcode map for an opcode word: the word's own number up to 20, the last row from 21 on. -/
def rowOf (op : Word) : OpcodeRow := opcodeTable[min op.toNat 21]'(Nat.lt_succ_of_le (Nat.min_le_right op.toNat 21))

theorem rowOf_mem (op : Word) : rowOf op ∈ opcodeTable := List.getElem_mem _

theorem rowOf_of_ge {op : Word} (h : 21 ≤ op.toNat) : rowOf op = ⟨21, 65535, "noop", .w1, []⟩ := by
  simp only [rowOf, Nat.min_eq_right h]
  rfl

/-- R62: the row of a well-formed instruction's opcode word covers it and is the instruction's own. -/
theorem rowOf_opcode {i : Instr} (hwf : i.wf = true) :
    (rowOf i.opcode).covers i.opcode = true ∧ (rowOf i.opcode).mnemonic = i.mnemonic ∧
      (rowOf i.opcode).roles.length = i.operands.length := by
  cases i with
  | noop op =>
    have hge : 21 ≤ op.toNat := of_decide_eq_true hwf
    have hle : op.toNat ≤ 65535 := by omega
    rw [Instr.opcode, rowOf_of_ge hge]
    exact ⟨decide_eq_true ⟨hge, hle⟩, rfl, rfl⟩
  | _ => exact ⟨rfl, rfl, rfl⟩

theorem rows_apart : ∀ row ∈ opcodeTable, ∀ other ∈ opcodeTable, other = row ∨ row.hi < other.lo ∨ other.hi < row.lo := by
  decide

/-- R62: no opcode word is in two rows. -/
theorem row_unique {row other : OpcodeRow} {op : Word} (hrow : row ∈ opcodeTable) (hother : other ∈ opcodeTable)
    (h : row.covers op = true) (h' : other.covers op = true) : other = row := by
  obtain ⟨hlo, hhi⟩ := of_decide_eq_true h
  obtain ⟨hlo', hhi'⟩ := of_decide_eq_true h'
  refine (rows_apart row hrow other hother).resolve_right ?_
  omega

/-- R50, R62: a row's format holds the opcode word and one word per role. -/
theorem row_format_words : ∀ row ∈ opcodeTable, row.format.words = 1 + row.roles.length := by decide

/-! ### The decoder on a list of words -/

/-- Words read one by one are the first of the four words at the same places. -/
theorem isPrefix_of_getD {ws : List Word} {f : Nat → Word} (hlength : ws.length ≤ 4) (h : ∀ k < ws.length, f k = ws.getD k 0) :
    ws <+: [f 0, f 1, f 2, f 3] := by
  rw [show [f 0, f 1, f 2, f 3] = (List.range 4).map f from rfl, List.prefix_iff_getElem?]
  intro k hk
  rw [List.getElem?_map, List.getElem?_range (by omega), Option.map_some, h k hk, List.getD_eq_getElem ws 0 hk]

theorem isPrefix_of_append {ws : List Word} (hlength : ws.length ≤ 4) (rest : List Word) :
    ws <+: [(ws ++ rest).getD 0 0, (ws ++ rest).getD 1 0, (ws ++ rest).getD 2 0, (ws ++ rest).getD 3 0] :=
  isPrefix_of_getD (f := fun k => (ws ++ rest).getD k 0) hlength fun k hk => List.getD_append ws rest 0 k hk

/-- R65: the decoder reads an instruction from every list that holds as many words as the opcode word tells, and from no other. -/
theorem decode_eq_ok_iff {ws : List Word} {i : Instr} {rest : List Word} :
    decode ws = .ok (i, rest) ↔
      instrLength (ws.getD 0 0) ≤ ws.length ∧
        decodeWords (ws.getD 0 0) (ws.getD 1 0) (ws.getD 2 0) (ws.getD 3 0) = i ∧ ws.drop (instrLength (ws.getD 0 0)) = rest := by
  cases ws with
  | nil => simp [decode, instrLength]
  | cons op tail =>
    have hdrop : (op :: tail).drop (instrLength op) = tail.drop (instrLength op - 1) := by
      obtain ⟨n, hn⟩ := Nat.exists_eq_add_of_le' (instrLength_pos op)
      rw [hn, List.drop_succ_cons, Nat.add_sub_cancel]
    simp only [decode, List.getD_cons_zero, List.getD_cons_succ, List.length_cons, hdrop]
    split
    · simp only [reduceCtorEq, false_iff]
      omega
    · have hfits : instrLength op ≤ tail.length + 1 := by omega
      simp only [Except.ok.injEq, Prod.mk.injEq, hfits, true_and]

/-- A table row's bits are four words, enough for an instruction of any length. -/
theorem decodeTableWord_eq (nbits w : Nat) :
    decodeTableWord nbits w = some (decodeWords ((tableWords nbits w).getD 0 0) ((tableWords nbits w).getD 1 0)
      ((tableWords nbits w).getD 2 0) ((tableWords nbits w).getD 3 0)) := by
  rw [decodeTableWord, decode_eq_ok_iff.mpr ⟨instrLength_le _, rfl, rfl⟩]
  rfl

/-! ### The words of the step -/

theorem State.fetchOperand_of_lt {s : State} {a : Nat} (h : a < s.memSize) : s.fetchOperand a = s.mem.read a := if_pos h

/-- R52: below `MEMSIZE` the opcode word is fetched as the three words after it are. -/
theorem State.fetchInstr_of_words {s : State} {f : Nat → Word} (hp : s.pc.toNat < s.memSize)
    (h : ∀ k < 4, s.fetchOperand (s.pc.toNat + k) = f k) : s.fetchInstr = decodeWords (f 0) (f 1) (f 2) (f 3) := by
  have hopcode : s.fetchOperand s.pc.toNat = f 0 := h 0 (by decide)
  rw [State.fetchInstr, ← State.fetchOperand_of_lt hp, hopcode, h 1 (by decide), h 2 (by decide), h 3 (by decide)]

/-- Placed words that all lie inside memory are the words fetched from `pc` on. -/
theorem State.fetchOperand_placeAtPc {s : State} {ws : List Word} (hwf : s.mem.wf) (hfits : s.pc.toNat + ws.length ≤ s.memSize)
    {k : Nat} (hk : k < ws.length) : (s.placeAtPc ws).fetchOperand ((s.placeAtPc ws).pc.toNat + k) = ws.getD k 0 := by
  have hmem : (s.placeAtPc ws).mem = s.mem.writeList s.pc.toNat ws := by
    rw [State.placeAtPc, State.place, List.take_of_length_le (by omega)]
  have hpc : (s.placeAtPc ws).pc = s.pc := rfl
  have hin : s.pc.toNat + k < (s.placeAtPc ws).memSize := Nat.lt_of_lt_of_le (by omega) hfits
  rw [hpc, State.fetchOperand_of_lt hin, hmem, Memory.read_writeList hwf, if_pos (by omega), Nat.add_sub_cancel_left]

/-- R100: a `jmp` with a valid operand loads it into `pc`. -/
theorem exec_jmp_of_valueOf {s : State} {a : Operand} {target : Word} (ha : s.valueOf a = some target) :
    exec (.jmp a) s = .next (s.jump target) := by
  simp only [exec, execJmp, State.val_of_valueOf ha, ok_bind]
  rfl

end Sys2Proof.Machine

namespace Sys2Proof.Claims

open Sys2Proof.Machine

/-- Settles O1: the encoded words are the first of the four words that the decoder looks at. -/
theorem decodeOfEncodeGivesTheInstructionBack : Obligations.DecodeOfEncodeGivesTheInstructionBack := by
  intro i rest hwf
  have hlength := encode_length hwf
  have hwords := isPrefix_of_append (encode_length_le hwf) rest
  refine decode_eq_ok_iff.mpr ⟨?_, decodeWords_of_isPrefix hwf hwords, ?_⟩
  · exact hlength ▸ (List.prefix_append _ rest).length_le
  · exact hlength ▸ List.drop_left

/-- Settles O2: the instruction's words and as many words of the list are both the first of the four words that the decoder looks at. -/
theorem encodeOfDecodeGivesTheWordsBack : Obligations.EncodeOfDecodeGivesTheWordsBack := by
  intro ws i rest h
  obtain ⟨hfits, hi, rfl⟩ := decode_eq_ok_iff.mp h
  have hwf : i.wf = true := hi ▸ decodeWords_wf _ _ _ _
  have hencode := hi ▸ encode_decodeWords (ws.getD 0 0) (ws.getD 1 0) (ws.getD 2 0) (ws.getD 3 0)
  have hlength : (encode i).length = instrLength (ws.getD 0 0) := by
    rw [encode_length hwf, ← hi, decodeWords_opcode]
  rw [← hlength] at hfits ⊢
  have htake : (ws.take (encode i).length).length = (encode i).length := List.length_take_of_le hfits
  have hwords := isPrefix_of_append (htake.trans_le (encode_length_le hwf)) (ws.drop (encode i).length)
  rw [List.take_append_drop] at hwords
  have heq : encode i = ws.take (encode i).length :=
    (List.prefix_of_prefix_length_le hencode hwords htake.ge).eq_of_length htake.symm
  refine ⟨hwf, ?_⟩
  calc encode i ++ ws.drop (encode i).length
      _ = ws.take (encode i).length ++ ws.drop (encode i).length := congrArg (· ++ _) heq
      _ = ws := List.take_append_drop _ ws

/-- Settles O4: the row found by the opcode word's number is the decoded instruction's, and the ranges of the rows do not meet. -/
theorem everyOpcodeWordDecodesByItsOneRow : Obligations.EveryOpcodeWordDecodesByItsOneRow := by
  intro op w1 w2 w3
  have hopcode := decodeWords_opcode op w1 w2 w3
  have hlength := encode_length (decodeWords_wf op w1 w2 w3)
  obtain ⟨hcovers, hmnemonic, hroles⟩ := rowOf_opcode (decodeWords_wf op w1 w2 w3)
  rw [hopcode] at hlength hcovers hmnemonic hroles
  have hoperands : (decodeWords op w1 w2 w3).operands = ([w1, w2, w3].take (rowOf op).roles.length).map decodeOperand := by
    rw [hroles, List.map_take]
    exact List.prefix_iff_eq_take.mp (decodeWords_operands op w1 w2 w3)
  have hformat := row_format_words _ (rowOf_mem op)
  refine ⟨rowOf op, rowOf_mem op, hcovers, fun other ho h => row_unique (rowOf_mem op) ho hcovers h, hopcode, hmnemonic.symm,
    hoperands, ?_, hformat⟩
  rw [← hlength, ← Instr.operands_length, hformat, hroles, Nat.add_comm]

/-- Settles O12: the four placed words are the four words fetched, and they hold an instruction of any length. -/
theorem placedWordIsExecutedByTheNextStep : Obligations.PlacedWordIsExecutedByTheNextStep := by
  intro s nbits w hwf hp
  refine ⟨_, decodeTableWord_eq nbits w, ?_⟩
  have hin : (s.withFetchWord nbits w).pc.toNat < (s.withFetchWord nbits w).memSize := Nat.lt_of_le_of_lt (Nat.le_add_right _ 3) hp
  rw [step_of_inside rfl hin]
  exact congrArg (exec · _) (State.fetchInstr_of_words hin fun k hk =>
    State.fetchOperand_placeAtPc (ws := tableWords nbits w) hwf hp hk)

/-- Settles O53: a `pc` inside memory is a literal, and the jump to it leaves the state as it is. -/
theorem jumpToSelfRunsForEver : Obligations.JumpToSelfRunsForEver := by
  intro s hr hp hop htarget
  have hsize : s.memSize < 32769 := s.params.memSize.isLt
  have hvalue : s.valueOf (decodeOperand s.pc) = some s.pc := by
    rw [decodeOperand_of_le (by omega)]
    exact congrArg some (literal_setWidth (by omega))
  have hstep : step s = .next s := by
    rw [step_of_cell hr rfl (by omega) hop, State.fetchOperand_of_lt hp, htarget]
    exact exec_jmp_of_valueOf hvalue
  exact ⟨hstep, run_of_step_self core hstep⟩

/-- Settles O3, a clause for each class. -/
theorem operandWordsFallIntoThreeClasses : Obligations.OperandWordsFallIntoThreeClasses := by
  intro w
  refine ⟨fun h => ?_, fun hlo hhi => ?_, fun h => ?_⟩
  · exact ⟨_, decodeOperand_of_le h, literal_toNat h⟩
  · exact ⟨⟨w.toNat - 32768, by omega⟩, decodeOperand_of_register (Nat.add_sub_cancel' hlo).symm, rfl⟩
  · exact ⟨decodeOperand_of_ge h, fun s => s.val_invalid w, rfl⟩

/-- Settles O5: the fetched instruction is the no-op. -/
theorem unknownOpcodesAreNoops : Obligations.UnknownOpcodesAreNoops := by
  intro s hr hp hop
  rw [step_of_inside hr hp, State.fetchInstr, decodeWords_of_ge hop]
  rfl

/-- Settles O6, by running the decoder on each word. -/
theorem handEncodedWordsDecode : Obligations.HandEncodedWordsDecode := by
  unfold Obligations.HandEncodedWordsDecode
  decide

/-- Settles O7, by the class of the word. -/
theorem operandWordsResolve : Obligations.OperandWordsResolve := by
  intro s w
  refine ⟨fun h => ?_, fun r h => ?_, fun h => ?_, fun r h => ?_, fun h => ?_⟩
  · rw [decodeOperand_of_le h]
    exact congrArg Except.ok (literal_setWidth h)
  · rw [decodeOperand_of_register h]
    rfl
  · rw [decodeOperand_of_ge h]
    rfl
  · rw [decodeOperand_of_register h]
    rfl
  · rcases h with h | h
    · rw [decodeOperand_of_le h, dst, literal_toNat h]
    · rw [decodeOperand_of_ge h]
      rfl

/-- Settles O8: the fetch reads the four words. -/
theorem stepExecutesTheFetchedWords : Obligations.StepExecutesTheFetchedWords :=
  fun _ hr hp => step_of_inside hr hp

/-- Settles O9: the instruction's words are the first of the four words fetched. -/
theorem stepRunsTheInstructionAtPc : Obligations.StepRunsTheInstructionAtPc := by
  intro s i hwf hr hfits hwords
  have hpos : 0 < (encode i).length := Nat.succ_pos _
  have hp : s.pc.toNat < s.memSize := by omega
  have hprefix := isPrefix_of_getD (ws := encode i) (f := fun k => s.fetchOperand (s.pc.toNat + k))
    (encode_length_le hwf) fun k hk => by rw [State.fetchOperand_of_lt (by omega), hwords k hk]
  rw [step_of_inside hr hp, State.fetchInstr_of_words hp fun _ _ => rfl, decodeWords_of_isPrefix hwf hprefix]

/-- Settles O10: the bounds check ends the step. -/
theorem stepPastMemoryExhaustsTheProgram : Obligations.StepPastMemoryExhaustsTheProgram :=
  fun _ hr hp => step_of_past_end hr hp

end Sys2Proof.Claims

/-! Proofs of the statements about machine control (40_machine_control.md): `halt` and the no-op. -/

namespace Sys2Proof.Machine

/-- R80: `halt` ends the run where it stands. -/
theorem exec_halt (s : State) : exec .halt s = .next (s.stoppedWith .halted) := rfl

/-- R81: the no-op moves on by its one word, whichever opcode word it is. -/
theorem exec_noop (op : Word) (s : State) : exec (.noop op) s = .next (s.advance 1) := rfl

/-- An instruction without operands is its opcode word alone. -/
theorem encode_of_no_operands {i : Instr} (h : i.operands = []) : encode i = [i.opcode] := by
  rw [encode, h, List.map_nil]

end Sys2Proof.Machine

namespace Sys2Proof.Claims

open Sys2Proof.Machine

/-- Settles O15: `halt` has no operands and stops before any advance. -/
theorem haltStopsTheRun : Obligations.HaltStopsTheRun :=
  ⟨encode_of_no_operands rfl, exec_halt⟩

/-- Settles O16: the no-op keeps its opcode word, has no operands and advances by one. -/
theorem noopOnlyAdvances : Obligations.NoopOnlyAdvances :=
  fun op _ => ⟨encode_of_no_operands rfl, exec_noop op⟩

end Sys2Proof.Claims

/-! Proofs of the statements about the register move and the stack (41_set_stack.md): the checks of an instruction's operand words,
the three-word form, and `set`, `push` and `pop`. -/

namespace Sys2Proof.Machine

theorem eq_reg_of_destOf {d : Operand} {r : RegIndex} (h : destOf d = some r) : d = .reg r := by
  cases d with
  | reg r' => exact congrArg Operand.reg (Option.some.inj h)
  | lit v => cases h
  | invalid w => cases h

/-- The three-word form once both operand words pass. -/
theorem State.unary_of_valueOf {s : State} {a : Operand} {v : Word} (f : Word → Word) (r : RegIndex) (ha : s.valueOf a = some v) :
    s.unary f (.reg r) a = .next { s with regs := s.regs.set r (f v), pc := s.pc + 3 } := by
  simp only [State.unary, dst_reg, State.val_of_valueOf ha, ok_bind]
  rfl

/-- R19: a `push` with the stack at its depth. -/
theorem exec_push_of_full {s : State} {a : Operand} {v : Word} (ha : s.valueOf a = some v)
    (hfull : s.params.stackDepth = some s.stack.length) :
    exec (.push a) s = .next (s.faultedWith .stackOverflow s.stack.length) := by
  simp only [exec, execPush, State.val_of_valueOf ha, State.pushWord_of_full hfull, ok_bind]
  rfl

/-- R20: a `pop` of the empty stack. -/
theorem exec_pop_of_nil {s : State} (r : RegIndex) (hs : s.stack = []) :
    exec (.pop (.reg r)) s = .next (s.faultedWith .stackUnderflow 0) := by
  simp only [exec, execPop, dst_reg, State.popWord_of_nil hs, ok_bind]
  rfl

end Sys2Proof.Machine

namespace Sys2Proof.Claims

open Sys2Proof.Machine

/-! ### The checks of the operand words

An instruction's meaning is a chain of checks, one per operand word in memory order (R57). `RaisesFirstBad` follows the chain, so that
`ChecksFirst` for an instruction is read off from its roles. -/

/-- The computation `x` raises the fault of the first bad word among `operands`, if there is one. -/
def RaisesFirstBad (operands : List (Role × Operand)) (x : Except Raised State) : Prop :=
  ∀ (cause : FaultCause) (info : Nat), firstBadWord operands = some (cause, info) → x = .error { cause := cause, info := info }

theorem RaisesFirstBad.nil (x : Except Raised State) : RaisesFirstBad [] x :=
  fun _ _ h => nomatch h

/-- R56: a destination word is checked, and the words after it by what follows. -/
theorem RaisesFirstBad.dest {d : Operand} {rest : List (Role × Operand)} {k : RegIndex → Except Raised State}
    (hk : ∀ r, RaisesFirstBad rest (k r)) : RaisesFirstBad ((.dest, d) :: rest) (dst d >>= k) := by
  intro cause info h
  rcases dst_cases d with ⟨r, rfl, hdst⟩ | ⟨hnone, hdst⟩
  · rw [hdst]
    exact hk r cause info h
  · simp only [firstBadWord, hnone, Option.some.injEq, Prod.mk.injEq] at h
    obtain ⟨rfl, rfl⟩ := h
    rw [hdst]
    rfl

/-- R55: a value word is checked, and the words after it by what follows. -/
theorem RaisesFirstBad.value {s : State} {a : Operand} {rest : List (Role × Operand)} {k : Word → Except Raised State}
    (hk : ∀ v, RaisesFirstBad rest (k v)) : RaisesFirstBad ((.value, a) :: rest) (s.val a >>= k) := by
  intro cause info h
  cases a with
  | lit v => exact hk _ cause info h
  | reg r => exact hk _ cause info h
  | invalid w =>
    simp only [firstBadWord, Option.some.injEq, Prod.mk.injEq] at h
    obtain ⟨rfl, rfl⟩ := h
    rfl

/-- R164: an instruction whose meaning raises the first bad word records that fault and changes nothing else. -/
theorem checksFirst_of_raises {i : Instr} {operands : List (Role × Operand)} {x : State → Except Raised State}
    (hexec : ∀ s, exec i s = s.finish (x s)) (hx : ∀ s, RaisesFirstBad operands (x s)) : ChecksFirst i operands := by
  intro s cause info h
  rw [hexec, hx s cause info h]
  rfl

/-- Every instruction of the form `State.unary` obeys the rule of three words. -/
theorem threeWordRule_of_unary {op : Word} {mk : Operand → Operand → Instr} {f : Nat → Nat} {g : Word → Word}
    (hwords : ∀ d a, encode (mk d a) = [op, encodeOperand d, encodeOperand a])
    (hexec : ∀ d a s, exec (mk d a) s = s.unary g d a) (hg : ∀ v, g v = BitVec.ofNat 16 (f v.toNat)) :
    ThreeWordRule op mk f := by
  intro d a
  refine ⟨hwords d a, checksFirst_of_raises (hexec d a) fun s => .dest fun r => .value fun v => .nil _, ?_⟩
  intro s r va hd ha
  obtain rfl := eq_reg_of_destOf hd
  rw [hexec, State.unary_of_valueOf g r ha, hg]

/-! ### The statements -/

/-- Settles O17: `set` is the three-word form with the identity, and a word is the word of its own number. -/
theorem setCopiesTheValue : Obligations.SetCopiesTheValue :=
  threeWordRule_of_unary (g := id) (fun _ _ => rfl) (fun _ _ _ => rfl) fun v => by
    rw [BitVec.ofNat_toNat, BitVec.setWidth_eq, id]

/-- Settles O18: after the check of its one word, `push` depends on the room in the stack alone. -/
theorem pushPutsTheValueOnTop : Obligations.PushPutsTheValueOnTop := by
  intro a
  refine ⟨rfl, checksFirst_of_raises (fun _ => rfl) fun s => .value fun v => .nil _, ?_⟩
  intro s v ha
  exact ⟨exec_push_of_room ha, exec_push_of_full ha⟩

/-- Settles O19: the destination word is checked first, and the rest is told apart by whether the stack has a top entry. -/
theorem popMovesTheTopIntoARegister : Obligations.PopMovesTheTopIntoARegister := by
  intro d
  refine ⟨rfl, checksFirst_of_raises (fun _ => rfl) fun s => .dest fun r => .nil _, ?_⟩
  intro s r hd
  obtain rfl := eq_reg_of_destOf hd
  exact ⟨exec_pop_of_nil r, fun v rest => exec_pop_of_cons r⟩

end Sys2Proof.Claims

/-! Proofs of the statements about comparisons (42_compare.md): the four-word form, the two results as words of numbers, and `eq` and
`gt`. -/

namespace Sys2Proof.Machine

/-- The four-word form once all three operand words pass. -/
theorem State.binary_of_valueOf {s : State} {a b : Operand} {v w : Word} (f : Word → Word → Word) (r : RegIndex)
    (ha : s.valueOf a = some v) (hb : s.valueOf b = some w) :
    s.binary f (.reg r) a b = .next { s with regs := s.regs.set r (f v w), pc := s.pc + 4 } := by
  simp only [State.binary, dst_reg, State.val_of_valueOf ha, State.val_of_valueOf hb, ok_bind]
  rfl

/-- R95: two words are the same word when their numbers are equal. -/
theorem eqResult_eq_ofNat (v w : Word) : eqResult v w = BitVec.ofNat 16 (if v.toNat = w.toNat then 1 else 0) := by
  rw [apply_ite (BitVec.ofNat 16)]
  simp only [BitVec.toNat_inj]
  rfl

/-- R96: the numbers of the words are compared, the first on the left. -/
theorem gtResult_eq_ofNat (v w : Word) : gtResult v w = BitVec.ofNat 16 (if v.toNat > w.toNat then 1 else 0) := by
  rw [apply_ite (BitVec.ofNat 16)]
  rfl

end Sys2Proof.Machine

namespace Sys2Proof.Claims

open Sys2Proof.Machine

/-- Every instruction of the form `State.binary` obeys the rule of four words. -/
theorem fourWordRule_of_binary {op : Word} {mk : Operand → Operand → Operand → Instr} {f : Nat → Nat → Nat} {g : Word → Word → Word}
    (hwords : ∀ d a b, encode (mk d a b) = [op, encodeOperand d, encodeOperand a, encodeOperand b])
    (hexec : ∀ d a b s, exec (mk d a b) s = s.binary g d a b) (hg : ∀ v w, g v w = BitVec.ofNat 16 (f v.toNat w.toNat)) :
    FourWordRule op mk f := by
  intro d a b
  refine ⟨hwords d a b, checksFirst_of_raises (hexec d a b) fun s => .dest fun r => .value fun v => .value fun w => .nil _, ?_⟩
  intro s r va vb hd ha hb
  obtain rfl := eq_reg_of_destOf hd
  rw [hexec, State.binary_of_valueOf g r ha hb, hg]

/-- Settles O20: `eq` is the four-word form with the comparison of whole words. -/
theorem eqWritesOneWhenEqual : Obligations.EqWritesOneWhenEqual :=
  fourWordRule_of_binary (fun _ _ _ => rfl) (fun _ _ _ _ => rfl) eqResult_eq_ofNat

/-- Settles O21: `gt` is the four-word form with the unsigned comparison. -/
theorem gtWritesOneWhenGreater : Obligations.GtWritesOneWhenGreater :=
  fourWordRule_of_binary (fun _ _ _ => rfl) (fun _ _ _ _ => rfl) gtResult_eq_ofNat

end Sys2Proof.Claims

/-! Proofs of the statements about jumps (43_jumps.md): the form of a conditional jump, its two tests as tests of numbers, and `jmp`,
`jt` and `jf`. -/

namespace Sys2Proof.Machine

/-- The conditional form once both operand words pass: they choose the next `pc` and nothing else. -/
theorem State.branch_of_valueOf {s : State} {a b : Operand} {c target : Word} (taken : Word → Bool) (ha : s.valueOf a = some c)
    (hb : s.valueOf b = some target) :
    s.branch taken a b = .next { s with pc := if taken c then target else s.pc + 3 } := by
  simp only [State.branch, State.val_of_valueOf ha, State.val_of_valueOf hb, ok_bind]
  cases taken c with
  | true => rfl
  | false => rfl

/-- R102: the test is made on the whole word, so on its number (D11). -/
theorem isZero_eq_toNat_beq (c : Word) : isZero c = (c.toNat == 0) := by
  rw [isZero, Bool.eq_iff_iff, beq_iff_eq, beq_iff_eq]
  exact BitVec.toNat_inj.symm

/-- R101: the test of `jt` is the negation of the test of `jf`. -/
theorem nonZero_eq_toNat_bne (c : Word) : nonZero c = (c.toNat != 0) :=
  congrArg not (isZero_eq_toNat_beq c)

end Sys2Proof.Machine

namespace Sys2Proof.Claims

open Sys2Proof.Machine

/-- Every instruction of the form `State.branch` obeys the rule of conditional jumps. -/
theorem branchRule_of_branch {op : Word} {mk : Operand → Operand → Instr} {taken : Nat → Bool} {test : Word → Bool}
    (hwords : ∀ a b, encode (mk a b) = [op, encodeOperand a, encodeOperand b])
    (hexec : ∀ a b s, exec (mk a b) s = s.branch test a b) (htest : ∀ c, test c = taken c.toNat) : BranchRule op mk taken := by
  intro a b
  refine ⟨hwords a b, checksFirst_of_raises (hexec a b) fun s => .value fun c => .value fun target => .nil _, ?_⟩
  intro s c target ha hb
  rw [hexec, State.branch_of_valueOf test ha hb, htest]

/-- Settles O22: after the check of its one word, `jmp` moves `pc` alone. -/
theorem jmpLoadsPc : Obligations.JmpLoadsPc := by
  intro a
  refine ⟨rfl, checksFirst_of_raises (fun _ => rfl) fun s => .value fun target => .nil _, ?_⟩
  intro s target ha
  exact exec_jmp_of_valueOf ha

/-- Settles O23: `jt` is the conditional form with the test for a word other than 0. -/
theorem jtJumpsWhenNonZero : Obligations.JtJumpsWhenNonZero :=
  branchRule_of_branch (fun _ _ => rfl) (fun _ _ _ => rfl) nonZero_eq_toNat_bne

/-- Settles O24: `jf` is the conditional form with the test for the word 0. -/
theorem jfJumpsWhenZero : Obligations.JfJumpsWhenZero :=
  branchRule_of_branch (fun _ _ => rfl) (fun _ _ _ => rfl) isZero_eq_toNat_beq

end Sys2Proof.Claims

/-! Proofs of the statements about arithmetic and logic (44_alu.md): the ALU results as words of numbers, their dependence on the low
15 bits of the operands, the division, and an `add` that is undone by an `add`. -/

namespace Sys2Proof.Machine

/-! ### The ALU results

`addResult`, `multResult` and `modResult` are reductions of numbers by definition; the three others are masked words. -/

/-- R115: the masked complement is the word of its number. -/
theorem notResult_eq (a : Word) : notResult a = BitVec.ofNat 16 (32767 - a.toNat % 32768) := by
  have hbound : 32767 - a.toNat % 32768 < 2 ^ 16 := by omega
  apply BitVec.eq_of_toNat_eq
  rw [notResult_toNat, BitVec.toNat_ofNat, Nat.mod_eq_of_lt hbound]

/-- R117: what `reduce15` gives is a 15-bit value. -/
theorem reduce15_lt (n : Nat) : (reduce15 n).toNat < 32768 := by
  rw [reduce15_toNat]
  exact Nat.mod_lt n (by decide)

/-- `reduce15` looks at its number modulo 32768 alone. -/
theorem reduce15_congr {m n : Nat} (h : m ≡ n [MOD 32768]) : reduce15 m = reduce15 n :=
  congrArg (BitVec.ofNat 16) h

/-- A word without its bit 15 is congruent to the whole word. -/
theorem clearBit15_modEq (a : Word) : (a &&& 0x7FFF).toNat ≡ a.toNat [MOD 32768] := by
  have h : (a &&& 0x7FFF).toNat = a.toNat % 32768 := Nat.and_two_pow_sub_one_eq_mod _ 15
  rw [h]
  exact Nat.mod_modEq _ _

/-- The low 15 bits of a bitwise operation are those of its operands. -/
theorem bitwise_modEq {f : Nat → Nat → Nat} (hf : ∀ {m n k : Nat}, f m n % 2 ^ k = f (m % 2 ^ k) (n % 2 ^ k)) {m n p q : Nat}
    (hmp : m ≡ p [MOD 32768]) (hnq : n ≡ q [MOD 32768]) : f m n ≡ f p q [MOD 32768] := by
  calc f m n % 32768
    _ = f (m % 32768) (n % 32768) := hf (k := 15)
    _ = f (p % 32768) (q % 32768) := congrArg₂ f hmp hnq
    _ = f p q % 32768 := (hf (k := 15)).symm

theorem addResult_congr {a b c d : Word} (hac : a.toNat ≡ c.toNat [MOD 32768]) (hbd : b.toNat ≡ d.toNat [MOD 32768]) :
    addResult a b = addResult c d :=
  reduce15_congr (hac.add hbd)

theorem multResult_congr {a b c d : Word} (hac : a.toNat ≡ c.toNat [MOD 32768]) (hbd : b.toNat ≡ d.toNat [MOD 32768]) :
    multResult a b = multResult c d :=
  reduce15_congr (hac.mul hbd)

theorem notResult_congr {a c : Word} (hac : a.toNat ≡ c.toNat [MOD 32768]) : notResult a = notResult c := by
  rw [notResult_eq, notResult_eq, hac]

theorem andResult_congr {a b c d : Word} (hac : a.toNat ≡ c.toNat [MOD 32768]) (hbd : b.toNat ≡ d.toNat [MOD 32768]) :
    andResult a b = andResult c d := by
  rw [andResult_eq, andResult_eq]
  exact reduce15_congr (bitwise_modEq Nat.and_mod_two_pow hac hbd)

theorem orResult_congr {a b c d : Word} (hac : a.toNat ≡ c.toNat [MOD 32768]) (hbd : b.toNat ≡ d.toNat [MOD 32768]) :
    orResult a b = orResult c d := by
  rw [orResult_eq, orResult_eq]
  exact reduce15_congr (bitwise_modEq Nat.or_mod_two_pow hac hbd)

/-- The additive inverse modulo 32768. -/
theorem addResult_addResult_inverse (v : Word) {k k' : Literal} (h : k'.toNat = 32768 - k.toNat) :
    addResult (addResult v (k.setWidth 16)) (k'.setWidth 16) = BitVec.ofNat 16 (v.toNat % 32768) := by
  apply reduce15_congr
  simp only [addResult, reduce15_toNat, BitVec.toNat_setWidth, Nat.ModEq]
  have := k.isLt
  omega

/-! ### Executions -/

/-- R112, D10: a zero divisor. -/
theorem exec_mod_of_zero {s : State} {a b : Operand} {v : Word} (r : RegIndex) (ha : s.valueOf a = some v)
    (hb : s.valueOf b = some 0) : exec (.mod (.reg r) a b) s = .next (s.faultedWith .divideByZero 0) := by
  simp only [exec, execMod, dst_reg, State.val_of_valueOf ha, State.val_of_valueOf hb, ok_bind, if_pos]
  rfl

/-- R112: a divisor that is not zero. -/
theorem exec_mod_of_ne_zero {s : State} {a b : Operand} {v w : Word} (r : RegIndex) (ha : s.valueOf a = some v)
    (hb : s.valueOf b = some w) (hw : w ≠ 0) :
    exec (.mod (.reg r) a b) s = .next { s with regs := s.regs.set r (modResult v w), pc := s.pc + 4 } := by
  simp only [exec, execMod, dst_reg, State.val_of_valueOf ha, State.val_of_valueOf hb, ok_bind, if_neg hw]
  rfl

/-- An `add` of a literal to a register. -/
theorem exec_add_literal (s : State) (r : RegIndex) (k : Literal) :
    exec (.add (.reg r) (.reg r) (.lit k)) s =
      .next { s with regs := s.regs.set r (addResult s.regs[r] (k.setWidth 16)), pc := s.pc + 4 } :=
  State.binary_of_valueOf (a := .reg r) (b := .lit k) addResult r rfl rfl

end Sys2Proof.Machine

namespace Sys2Proof.Claims

open Sys2Proof.Machine

/-- Settles O25: `add` is the four-word form with the reduced sum. -/
theorem addWrapsModulo32768 : Obligations.AddWrapsModulo32768 :=
  fourWordRule_of_binary (g := addResult) (fun _ _ _ => rfl) (fun _ _ _ _ => rfl) fun _ _ => rfl

/-- Settles O26: `mult` is the four-word form with the reduced product. -/
theorem multWrapsModulo32768 : Obligations.MultWrapsModulo32768 :=
  fourWordRule_of_binary (g := multResult) (fun _ _ _ => rfl) (fun _ _ _ _ => rfl) fun _ _ => rfl

/-- Settles O27: the divisor is tested after the checks of the operand words, and decides between the fault and the remainder. -/
theorem modIsTheRemainderOrDivideByZero : Obligations.ModIsTheRemainderOrDivideByZero := by
  intro d a b
  refine ⟨rfl, checksFirst_of_raises (fun _ => rfl) fun s => .dest fun r => .value fun v => .value fun w => .nil _, ?_⟩
  intro s r va vb hd ha hb
  obtain rfl := eq_reg_of_destOf hd
  constructor
  · intro hzero
    obtain rfl : vb = 0 := BitVec.eq_of_toNat_eq hzero
    exact exec_mod_of_zero r ha hb
  · intro hne
    exact exec_mod_of_ne_zero r ha hb fun hzero => hne (congrArg BitVec.toNat hzero)

/-- Settles O28: `and` is the four-word form, and its mask is the reduction modulo 32768. -/
theorem andIsBitwiseOn15Bits : Obligations.AndIsBitwiseOn15Bits :=
  fourWordRule_of_binary (fun _ _ _ => rfl) (fun _ _ _ _ => rfl) andResult_eq

/-- Settles O29: `or` is the four-word form, and its mask is the reduction modulo 32768. -/
theorem orIsBitwiseOn15Bits : Obligations.OrIsBitwiseOn15Bits :=
  fourWordRule_of_binary (fun _ _ _ => rfl) (fun _ _ _ _ => rfl) orResult_eq

/-- Settles O30: `not` is the three-word form with the masked complement. -/
theorem notComplements15Bits : Obligations.NotComplements15Bits :=
  threeWordRule_of_unary (fun _ _ => rfl) (fun _ _ _ => rfl) notResult_eq

/-- Settles O31: the results depend on the operands modulo 32768 alone, and each is a reduced number. -/
theorem aluIgnoresBit15ButInMod : Obligations.AluIgnoresBit15ButInMod := by
  intro a b
  have ha := (clearBit15_modEq a).symm
  have hb := (clearBit15_modEq b).symm
  refine ⟨addResult_congr ha hb, multResult_congr ha hb, andResult_congr ha hb, orResult_congr ha hb, notResult_congr ha,
    reduce15_lt _, reduce15_lt _, reduce15_lt _, ?_, ?_, ?_⟩
  · rw [andResult_eq]
    exact reduce15_lt _
  · rw [orResult_eq]
    exact reduce15_lt _
  · rw [notResult_toNat]
    omega

/-- Settles O32: the second `add` reads what the first wrote, overwrites it, and the two literals cancel. -/
theorem addOfTheInverseUndoesAdd : Obligations.AddOfTheInverseUndoesAdd := by
  intro s r k k' _ hinverse
  refine ⟨_, exec_add_literal s r k, ?_⟩
  rw [exec_add_literal]
  simp only [Fin.getElem_fin, Vector.getElem_set_self, Vector.set_set, addResult_addResult_inverse _ hinverse, BitVec.add_assoc]
  rfl

end Sys2Proof.Claims

/-! Proofs of the statements about load and store (45_memory_access.md): `rmem` and `wmem` inside memory and past its end. -/

namespace Sys2Proof.Machine

/-- R130: a load from a cell inside memory, whose 16 bits go to the register whole (D4). -/
theorem exec_rmem_of_lt {s : State} {a : Operand} {addr : Word} (r : RegIndex) (ha : s.valueOf a = some addr)
    (hm : addr.toNat < s.memSize) :
    exec (.rmem (.reg r) a) s = .next { s with regs := s.regs.set r (s.mem.read addr.toNat), pc := s.pc + 3 } := by
  simp only [exec, execRmem, dst_reg, State.val_of_valueOf ha, State.memRead_of_lt hm, ok_bind]
  rfl

/-- R33: a load from past the end of memory. -/
theorem exec_rmem_of_ge {s : State} {a : Operand} {addr : Word} (r : RegIndex) (ha : s.valueOf a = some addr)
    (hm : s.memSize ≤ addr.toNat) :
    exec (.rmem (.reg r) a) s = .next (s.faultedWith .memoryOutOfBounds addr.toNat) := by
  simp only [exec, execRmem, dst_reg, State.val_of_valueOf ha, State.memRead_of_ge hm, ok_bind, error_bind]
  rfl

/-- R34, D3: a store past the end of memory. -/
theorem exec_wmem_of_ge {s : State} {a b : Operand} {addr v : Word} (ha : s.valueOf a = some addr) (hb : s.valueOf b = some v)
    (hm : s.memSize ≤ addr.toNat) :
    exec (.wmem a b) s = .next (s.faultedWith .memoryOutOfBounds addr.toNat) := by
  simp only [exec, execWmem, State.val_of_valueOf ha, State.val_of_valueOf hb, State.memWrite_of_ge hm, ok_bind, error_bind]
  rfl

end Sys2Proof.Machine

namespace Sys2Proof.Claims

open Sys2Proof.Machine

/-- Settles O33: the address is compared with `MEMSIZE` after the checks of the operand words. -/
theorem rmemLoadsTheCell : Obligations.RmemLoadsTheCell := by
  intro d a
  refine ⟨rfl, checksFirst_of_raises (fun _ => rfl) fun s => .dest fun r => .value fun addr => .nil _, ?_⟩
  intro s r addr hd ha
  obtain rfl := eq_reg_of_destOf hd
  exact ⟨exec_rmem_of_lt r ha, exec_rmem_of_ge r ha⟩

/-- Settles O34: inside memory the new memory is the old one with one cell written, which keeps the canonical form. -/
theorem wmemStoresOneCell : Obligations.WmemStoresOneCell := by
  intro a b
  refine ⟨rfl, checksFirst_of_raises (fun _ => rfl) fun s => .value fun addr => .value fun v => .nil _, ?_⟩
  intro s addr v hwf ha hb
  refine ⟨fun hm => ⟨s.mem.write addr.toNat v, exec_wmem_of_lt ha hb hm, Memory.write_wf hwf _ v, ?_, fun k hk => ?_⟩,
    exec_wmem_of_ge ha hb⟩
  · rw [Memory.read_write hwf, if_pos rfl]
  · rw [Memory.read_write hwf, if_neg hk]

end Sys2Proof.Claims

/-! Proofs of the statements about subroutines (46_call_ret.md): `call` with room in the stack and without, `ret` with a top entry and
without, and the two of them one after the other. -/

namespace Sys2Proof.Machine

/-- R140: a `call` with room for the return address. -/
theorem exec_call_of_room {s : State} {a : Operand} {target : Word} (ha : s.valueOf a = some target)
    (hroom : s.params.stackDepth ≠ some s.stack.length) :
    exec (.call a) s = .next { s with stack := (s.pc + 2) :: s.stack, pc := target } := by
  simp only [exec, execCall, State.val_of_valueOf ha, State.pushWord_of_room hroom, ok_bind]
  rfl

/-- R140, D6: a `call` with the stack at its depth. -/
theorem exec_call_of_full {s : State} {a : Operand} {target : Word} (ha : s.valueOf a = some target)
    (hfull : s.params.stackDepth = some s.stack.length) :
    exec (.call a) s = .next (s.faultedWith .stackOverflow s.stack.length) := by
  simp only [exec, execCall, State.val_of_valueOf ha, State.pushWord_of_full hfull, ok_bind, error_bind]
  rfl

/-- R141, D12: a `ret` with nothing to return to. -/
theorem exec_ret_of_nil {s : State} (hs : s.stack = []) : exec .ret s = .next (s.stoppedWith .halted) := by
  simp only [exec, execRet, State.popWord_of_nil hs]
  rfl

/-- R141: a `ret` goes to the top entry, whoever pushed it. -/
theorem exec_ret_of_cons {s : State} {target : Word} {rest : List Word} (hs : s.stack = target :: rest) :
    exec .ret s = .next { s with stack := rest, pc := target } := by
  simp only [exec, execRet, State.popWord_of_cons hs]
  rfl

end Sys2Proof.Machine

namespace Sys2Proof.Claims

open Sys2Proof.Machine

/-- Settles O36: after the check of its one word, `call` depends on the room in the stack alone. -/
theorem callPushesTheReturnAddress : Obligations.CallPushesTheReturnAddress := by
  intro a
  refine ⟨rfl, checksFirst_of_raises (fun _ => rfl) fun s => .value fun target => .nil _, ?_⟩
  intro s target ha
  exact ⟨exec_call_of_room ha, exec_call_of_full ha⟩

/-- Settles O38: the `ret` at the target finds the return address on top, and below it the stack as it was before the `call`. -/
theorem retResumesAfterTheCall : Obligations.RetResumesAfterTheCall := by
  intro s w target hr hp hop hw htarget hin hret hroom
  have hcall : step s = exec (.call (decodeOperand w)) s := by
    rw [step_of_cell hr rfl (Nat.lt_of_succ_lt hp) hop, State.fetchOperand_of_lt hp, hw]
    rfl
  refine ⟨{ s with stack := (s.pc + 2) :: s.stack, pc := target }, hcall.trans (exec_call_of_room htarget hroom), rfl, ?_⟩
  exact Eq.trans (step_of_cell hr rfl hin hret) (exec_ret_of_cons rfl)

/-- Settles O37: `ret` has no operands and is told apart by whether the stack has a top entry. -/
theorem retPopsPcOrHalts : Obligations.RetPopsPcOrHalts :=
  ⟨encode_of_no_operands rfl, fun _ => ⟨exec_ret_of_nil, fun _ _ => exec_ret_of_cons⟩⟩

end Sys2Proof.Claims

/-! Proofs of the statements about the character channels (47_io.md): `out`, the four answers an `in` can get, and that no step depends
on what has been emitted. -/

namespace Sys2Proof.Machine

/-! ### Output -/

/-- R150, R151: an `out` whose operand passes emits bits 7..0 of the value. -/
theorem exec_out_of_valueOf {s : State} {a : Operand} {v : Word} (ha : s.valueOf a = some v) :
    exec (.out a) s = .next { s with output := s.output ++ [v.setWidth 8], pc := s.pc + 2 } := by
  simp only [exec, execOut, State.val_of_valueOf ha, ok_bind]
  rfl

/-- Bits 7..0 of a word, as a number. -/
theorem setWidth_eight_eq_ofNat_mod (v : Word) : v.setWidth 8 = BitVec.ofNat 8 (v.toNat % 256) :=
  BitVec.eq_of_toNat_eq (by simp)

/-! ### Input -/

/-- R153: an `in` that gets a character, which goes zero-extended to the register. -/
theorem exec_in_of_char {s : State} {c : Byte} {rest : List InputEvent} (r : RegIndex) (hi : s.input = .char c :: rest) :
    exec (.inp (.reg r)) s =
      .next { s with input := rest, regs := s.regs.set r (BitVec.ofNat 16 c.toNat), pc := s.pc + 2 } := by
  simp only [exec, execIn, dst_reg, State.inNext, hi, ok_bind, BitVec.ofNat_toNat]
  rfl

/-- R153, R155: an `in` answered by a listed `Wait`, which is used up. -/
theorem exec_in_of_notYet {s : State} {rest : List InputEvent} (r : RegIndex) (hi : s.input = .notYet :: rest) :
    exec (.inp (.reg r)) s = .next { s with input := rest } := by
  simp only [exec, execIn, dst_reg, State.inNext, hi, ok_bind]
  rfl

/-- R153, R155: an `in` answered by the lasting `Wait`. -/
theorem exec_in_of_waits {s : State} (r : RegIndex) (hi : s.input = []) (ht : s.inputTail = .waits) :
    exec (.inp (.reg r)) s = .next s := by
  simp only [exec, execIn, dst_reg, State.inNext, hi, ht, ok_bind]
  rfl

/-- R153, D12: an `in` answered by `End`. -/
theorem exec_in_of_ends {s : State} (r : RegIndex) (hi : s.input = []) (ht : s.inputTail = .ends) :
    exec (.inp (.reg r)) s = .next (s.stoppedWith .inputExhausted) := by
  simp only [exec, execIn, dst_reg, State.inNext, hi, ht, ok_bind]
  rfl

/-! ### What was emitted is never read

An instruction is begun in a state and in the same state with another output stream, and its two results are compared. -/

abbrev State.withOutput (s : State) (other : List Byte) : State := { s with output := other }

/-- The results of one instruction begun in `s` and in `s.withOutput other`: the same next state but for the output stream, with the
same appended to both streams. -/
inductive AppendsAlike (s : State) (other : List Byte) : Result → Result → Prop where
  | silent {t : State} (h : t.output = s.output) : AppendsAlike s other (.next t) (.next (t.withOutput other))
  | emitted {t : State} {b : Byte} (h : t.output = s.output ++ [b]) :
      AppendsAlike s other (.next t) (.next (t.withOutput (other ++ [b])))

section
variable {s : State} {other : List Byte}

theorem AppendsAlike.exists_emitted {t : State} {r : Result} (h : AppendsAlike s other (.next t) r) :
    ∃ emitted, t.output = s.output ++ emitted ∧ r = .next (t.withOutput (other ++ emitted)) := by
  cases h with
  | silent h => exact ⟨[], by rw [h, List.append_nil], by rw [List.append_nil]⟩
  | emitted h => exact ⟨_, h, rfl⟩

/-- A check or a read `y` that both instructions make: its fault emits nothing, with its value both go on. -/
theorem AppendsAlike.bind {α : Type} {y : Except Raised α} {k k' : α → Except Raised State}
    (hk : ∀ v, AppendsAlike s other (s.finish (k v)) ((s.withOutput other).finish (k' v))) :
    AppendsAlike s other (s.finish (y >>= k)) ((s.withOutput other).finish (y >>= k')) := by
  cases y with
  | ok v => exact hk v
  | error e => exact .silent rfl

/-- A push meets the same stack and the same depth in both. -/
theorem AppendsAlike.pushWord {k : State → Except Raised State} (v : Word)
    (hk : AppendsAlike s other (s.finish (k { s with stack := v :: s.stack }))
      ((s.withOutput other).finish (k { s.withOutput other with stack := v :: s.stack }))) :
    AppendsAlike s other (s.finish (s.pushWord v >>= k)) ((s.withOutput other).finish ((s.withOutput other).pushWord v >>= k)) := by
  by_cases hfull : s.params.stackDepth = some s.stack.length
  · rw [State.pushWord_of_full hfull, State.pushWord_of_full (s := s.withOutput other) hfull]
    exact .silent rfl
  · rw [State.pushWord_of_room hfull, State.pushWord_of_room (s := s.withOutput other) hfull]
    exact hk

theorem State.unary_appendsAlike (f : Word → Word) (d a : Operand) :
    AppendsAlike s other (s.unary f d a) ((s.withOutput other).unary f d a) :=
  .bind (y := dst d) fun _ => .bind (y := s.val a) fun _ => .silent rfl

theorem State.binary_appendsAlike (f : Word → Word → Word) (d a b : Operand) :
    AppendsAlike s other (s.binary f d a b) ((s.withOutput other).binary f d a b) :=
  .bind (y := dst d) fun _ => .bind (y := s.val a) fun _ => .bind (y := s.val b) fun _ => .silent rfl

theorem State.branch_appendsAlike (taken : Word → Bool) (a b : Operand) :
    AppendsAlike s other (s.branch taken a b) ((s.withOutput other).branch taken a b) := by
  refine .bind (y := s.val a) fun c => .bind (y := s.val b) fun target => ?_
  split
  · exact .silent rfl
  · exact .silent rfl

/-- The source answers alike, whatever stands in the output stream. -/
theorem exec_in_appendsAlike (r : RegIndex) :
    AppendsAlike s other (exec (.inp (.reg r)) s) (exec (.inp (.reg r)) (s.withOutput other)) := by
  rcases s.inNext_cases with ⟨c, rest, hi, _⟩ | ⟨rest, hi, _⟩ | ⟨hi, ht, _⟩ | ⟨hi, ht, _⟩
  · rw [exec_in_of_char r hi, exec_in_of_char (s := s.withOutput other) r hi]
    exact .silent rfl
  · rw [exec_in_of_notYet r hi, exec_in_of_notYet (s := s.withOutput other) r hi]
    exact .silent rfl
  · rw [exec_in_of_waits r hi ht, exec_in_of_waits (s := s.withOutput other) r hi ht]
    exact .silent rfl
  · rw [exec_in_of_ends r hi ht, exec_in_of_ends (s := s.withOutput other) r hi ht]
    exact .silent rfl

/-- R151: of all instructions only `out` touches the output stream, and it only appends. -/
theorem exec_appendsAlike (i : Instr) : AppendsAlike s other (exec i s) (exec i (s.withOutput other)) := by
  cases i with
  | halt | noop => exact .silent rfl
  | set | not => exact State.unary_appendsAlike ..
  | eq | gt | add | mult | and | or => exact State.binary_appendsAlike ..
  | jt | jf => exact State.branch_appendsAlike ..
  | jmp a => exact .bind (y := s.val a) fun _ => .silent rfl
  | out a => exact .bind (y := s.val a) fun _ => .emitted rfl
  | push a => exact .bind (y := s.val a) fun v => .pushWord v (.silent rfl)
  | call a => exact .bind (y := s.val a) fun _ => .pushWord (s.pc + 2) (.silent rfl)
  | rmem d a =>
    exact .bind (y := dst d) fun _ => .bind (y := s.val a) fun addr => .bind (y := s.memRead addr) fun _ => .silent rfl
  | mod d a b =>
    refine .bind (y := dst d) fun _ => .bind (y := s.val a) fun _ => .bind (y := s.val b) fun w => ?_
    split
    · exact .silent rfl
    · exact .silent rfl
  | wmem a b =>
    refine .bind (y := s.val a) fun addr => .bind (y := s.val b) fun v => ?_
    by_cases hm : addr.toNat < s.memSize
    · rw [State.memWrite_of_lt hm, State.memWrite_of_lt (s := s.withOutput other) hm]
      exact .silent rfl
    · have hge := Nat.le_of_not_lt hm
      rw [State.memWrite_of_ge hge, State.memWrite_of_ge (s := s.withOutput other) hge]
      exact .silent rfl
  | pop d =>
    refine .bind (y := dst d) fun r => ?_
    cases hs : s.stack with
    | nil =>
      rw [State.popWord_of_nil hs, State.popWord_of_nil (s := s.withOutput other) hs]
      exact .silent rfl
    | cons v rest =>
      rw [State.popWord_of_cons hs, State.popWord_of_cons (s := s.withOutput other) hs]
      exact .silent rfl
  | ret =>
    cases hs : s.stack with
    | nil =>
      rw [exec_ret_of_nil hs, exec_ret_of_nil (s := s.withOutput other) hs]
      exact .silent rfl
    | cons target rest =>
      rw [exec_ret_of_cons hs, exec_ret_of_cons (s := s.withOutput other) hs]
      exact .silent rfl
  | inp d =>
    cases d with
    | reg r => exact exec_in_appendsAlike r
    | lit | invalid => exact .silent rfl

/-- R51, R52: neither the bounds check nor the fetch reads the output stream. -/
theorem step_appendsAlike (hr : s.runState = .running) : AppendsAlike s other (step s) (step (s.withOutput other)) := by
  by_cases hp : s.pc.toNat < s.memSize
  · rw [step_of_inside hr hp, step_of_inside (s := s.withOutput other) hr hp]
    exact exec_appendsAlike s.fetchInstr
  · have hend := Nat.le_of_not_lt hp
    rw [step_of_past_end hr hend, step_of_past_end (s := s.withOutput other) hr hend]
    exact .silent rfl

end

end Sys2Proof.Machine

namespace Sys2Proof.Claims

open Sys2Proof.Machine

/-- Settles O40: after the check of its one word, `out` always completes (D13). -/
theorem outAppendsOneCharacter : Obligations.OutAppendsOneCharacter := by
  intro a
  refine ⟨rfl, checksFirst_of_raises (fun _ => rfl) fun s => .value fun v => .nil _, ?_⟩
  intro s v ha
  rw [exec_out_of_valueOf ha, setWidth_eight_eq_ofNat_mod]

/-- Settles O41: the destination word is checked first, and the rest is told apart by the answer of the source. -/
theorem inTakesOneCharacterOrWaitsOrStops : Obligations.InTakesOneCharacterOrWaitsOrStops := by
  intro d
  refine ⟨rfl, checksFirst_of_raises (fun _ => rfl) fun s => .dest fun r => .nil _, ?_⟩
  intro s r hd
  obtain rfl := eq_reg_of_destOf hd
  exact ⟨fun c rest => exec_in_of_char r, exec_in_of_waits r, exec_in_of_ends r⟩

/-- Settles O42: the retried `in` is again an `in`, begun with the list one `Wait` shorter. -/
theorem listedWaitHoldsTheCoreOnce : Obligations.ListedWaitHoldsTheCoreOnce := by
  intro s d r rest hd hi
  obtain rfl := eq_reg_of_destOf hd
  exact ⟨exec_in_of_notYet r hi, fun c more hrest => exec_in_of_char r hrest, fun more hrest => exec_in_of_notYet r hrest,
    fun hrest ht => exec_in_of_waits r hrest ht, fun hrest ht => exec_in_of_ends r hrest ht⟩

/-- Settles O49: a next state comes from a running core, whose step appends alike to every output stream. -/
theorem outputNeverInfluencesTheCore : Obligations.OutputNeverInfluencesTheCore := by
  intro s t other h
  obtain ⟨hr, _⟩ := step_next_cases h
  have hstep := step_appendsAlike (other := other) hr
  rw [h] at hstep
  exact hstep.exists_emitted

end Sys2Proof.Claims

/-! Proofs of the statements about the end of a run and what a host observes (60_exceptions.md): the trace record, a step that ends the
run, an ended core, a held core, and the codes of `run_state`. -/

namespace Sys2Proof.Machine

/-! ### The steps of an ended and of a held core -/

/-- R161, R164: of all effects only a fault and a stop leave a core that is not running. -/
theorem Effect.of_ended {s t : State} (h : Effect s t) (hs : s.runState = .running) (ht : t.runState ≠ .running) :
    (∃ e, t = s.raise e) ∨ ∃ reason, t = s.stop reason := by
  cases h with
  | fault e => exact .inl ⟨e, rfl⟩
  | stop reason => exact .inr ⟨reason, rfl⟩
  | _ => exact absurd hs ht

theorem State.ended_iff {s : State} : s.ended = true ↔ s.runState ≠ .running := bne_iff_ne

/-- R166: what is reached from an ended core is the core itself. -/
theorem Reaches.eq_of_not_running {s t : State} (hs : s.runState ≠ .running) (h : Reaches s t) : t = s := by
  induction h with
  | refl => rfl
  | step _ hnext ih =>
    rw [ih, step_of_not_running hs] at hnext
    cases hnext

/-! ### Codes -/

theorem StopReason.code_bit4 (reason : StopReason) : reason.code.getLsbD 4 = false := by
  cases reason <;> rfl

theorem FaultCause.code_bit4 (cause : FaultCause) : cause.code.getLsbD 4 = true := by
  cases cause <;> rfl

theorem StopReason.code_ne_zero (reason : StopReason) : reason.code ≠ 0 := by
  cases reason <;> decide

theorem FaultCause.code_ne_zero (cause : FaultCause) : cause.code ≠ 0 := by
  cases cause <;> decide

theorem StopReason.code_injective : Function.Injective StopReason.code := by
  intro a b
  cases a <;> cases b <;> decide

theorem FaultCause.code_injective : Function.Injective FaultCause.code := by
  intro a b
  cases a <;> cases b <;> decide

/-- D15: bit 4 marks a fault. -/
theorem RunState.code_bit4_iff (r : RunState) :
    r.code.getLsbD 4 = true ↔ ∃ cause atPc info, r = .faulted cause atPc info := by
  cases r with
  | running => exact iff_of_false (by decide) nofun
  | stopped reason => exact iff_of_false (ne_true_of_eq_false reason.code_bit4) nofun
  | faulted cause atPc info => exact iff_of_true cause.code_bit4 ⟨cause, atPc, info, rfl⟩

/-- D15: the code 0 is that of `RUNNING` alone. -/
theorem RunState.code_eq_zero_iff (r : RunState) : r.code = 0 ↔ r = .running := by
  cases r with
  | running => exact iff_of_true rfl rfl
  | stopped reason => exact iff_of_false reason.code_ne_zero nofun
  | faulted cause atPc info => exact iff_of_false cause.code_ne_zero nofun

/-- D15: the code tells the reason or the cause. -/
theorem RunState.eq_of_code_eq {r q : RunState} (h : r.code = q.code) :
    r = q ∨ ∃ cause atPc info atPc' info', r = .faulted cause atPc info ∧ q = .faulted cause atPc' info' := by
  cases r with
  | running => exact .inl ((q.code_eq_zero_iff.mp h.symm).symm)
  | stopped reason =>
    cases q with
    | running => exact absurd h reason.code_ne_zero
    | stopped reason' => exact .inl (congrArg RunState.stopped (StopReason.code_injective h))
    | faulted cause atPc info =>
      have hbit : cause.code.getLsbD 4 = false := (congrArg (·.getLsbD 4) h).symm.trans reason.code_bit4
      exact absurd cause.code_bit4 (ne_true_of_eq_false hbit)
  | faulted cause atPc info =>
    have hbit : q.code.getLsbD 4 = true := h ▸ cause.code_bit4
    obtain ⟨cause', atPc', info', rfl⟩ := q.code_bit4_iff.mp hbit
    obtain rfl := FaultCause.code_injective h
    exact .inr ⟨cause, atPc, info, atPc', info', rfl, rfl⟩

end Sys2Proof.Machine

namespace Sys2Proof.Claims

open Sys2Proof.Machine

/-- Settles O13: the record and the step begin alike, with the bounds check and the fetch. -/
theorem traceRecordsTheInstructionExecuted : Obligations.TraceRecordsTheInstructionExecuted := by
  intro s
  refine ⟨fun hr hp => ⟨step_of_inside hr hp, ?_⟩, fun hnone => ?_⟩
  · rw [State.traceRecord, State.startStep_of_inside hr hp]
  · by_cases hr : s.runState = .running
    · have hp : s.memSize ≤ s.pc.toNat := hnone.resolve_left (absurd hr)
      rw [State.traceRecord, State.startStep_of_past_end hr hp]
    · rw [State.traceRecord, State.startStep_of_not_running hr]

/-- Settles O50: the step was a fault or a stop. -/
theorem endingStepWritesRunStateOnly : Obligations.EndingStepWritesRunStateOnly := by
  intro s t h ht
  obtain ⟨hr, _⟩ := step_next_cases h
  obtain ⟨e, rfl⟩ | ⟨reason, rfl⟩ := (step_effect h).of_ended hr ht
  · refine ⟨rfl, fun cause atPc info hfault => ?_⟩
    obtain ⟨_, hpc, _⟩ := RunState.faulted.inj hfault
    exact hpc.symm
  · exact ⟨rfl, fun cause atPc info hfault => nomatch hfault⟩

/-- Settles O52, by the chain of steps: none begins in an ended core. -/
theorem endedCoreReachesOnlyItself : Obligations.EndedCoreReachesOnlyItself :=
  fun _ _ hended hreaches => hreaches.eq_of_not_running (State.ended_iff.mp hended)

/-- Settles O54: the `in` that gets the lasting `Wait` leaves the state as it is. -/
theorem heldCoreStaysRunning : Obligations.HeldCoreStaysRunning := by
  intro s r hr hp hfetch hi ht
  have hstep : step s = .next s := by
    rw [step_of_inside hr hp, hfetch, exec_in_of_waits r hi ht]
  exact ⟨hstep, run_of_step_self core hstep⟩

/-- Settles O55, a lemma for each clause. -/
theorem runStateCodesTellThemApart : Obligations.RunStateCodesTellThemApart :=
  fun r _ => ⟨r.code_bit4_iff, r.code_eq_zero_iff, RunState.eq_of_code_eq⟩

end Sys2Proof.Claims

/-! Proof that the step is the spec's pseudocode (30_encoding.md rule R60): the pseudocode's checks and updates, over numbers, against
the model's over operands and words, and then each instruction against its pseudocode. -/

namespace Sys2Proof.Reference

open Sys2Proof.Machine

/-! ### Fetch and checks of the pseudocode -/

theorem fetchOperand_eq_toNat (s : State) (a : Nat) : fetchOperand s a = (s.fetchOperand a).toNat :=
  (apply_ite BitVec.toNat (a < s.memSize) (s.mem.read a) 0).symm

/-- R55: a value word passes with the number of its value, and an invalid word is recorded. -/
theorem val_cases (s : State) (w : Word) :
    (∃ v, s.valueOf (decodeOperand w) = some v ∧ val s w.toNat = .ok v.toNat) ∨
      (decodeOperand w = .invalid w ∧ val s w.toNat = .error (.invalidOperand, w.toNat)) := by
  rcases operandWord_cases w with h | ⟨r, h⟩ | h
  · refine .inl ⟨w, ?_, if_pos h⟩
    rw [decodeOperand_of_le h]
    exact congrArg some (literal_setWidth h)
  · refine .inl ⟨s.regs[r], by rw [decodeOperand_of_register h]; rfl, ?_⟩
    rw [val, if_neg (by omega), if_pos (by omega), h, Nat.add_sub_cancel_left, x, dif_pos r.isLt]
    rfl
  · exact .inr ⟨decodeOperand_of_ge h, by rw [val, if_neg (by omega), if_neg (by omega)]⟩

/-- R56: a destination word passes with the number of its register, and any other word is recorded. -/
theorem dst_cases (w : Word) :
    (∃ r : RegIndex, decodeOperand w = .reg r ∧ dst w.toNat = .ok r.val) ∨
      (Machine.dst (decodeOperand w) = .error { cause := .invalidDestination, info := w.toNat } ∧
        dst w.toNat = .error (.invalidDestination, w.toNat)) := by
  rcases operandWord_cases w with h | ⟨r, h⟩ | h
  · refine .inr ⟨?_, if_neg (by omega)⟩
    rw [decodeOperand_of_le h, Machine.dst, literal_toNat h]
  · refine .inl ⟨r, decodeOperand_of_register h, ?_⟩
    rw [dst, if_pos (by omega), h, Nat.add_sub_cancel_left]
  · refine .inr ⟨?_, if_neg (by omega)⟩
    rw [decodeOperand_of_ge h]
    rfl

/-! ### Updates of the pseudocode -/

theorem ofNat_toNat (v : Word) : BitVec.ofNat 16 v.toNat = v := by
  rw [BitVec.ofNat_toNat, BitVec.setWidth_eq]

theorem ofNat_toNat_add (v : Word) (n : Nat) : BitVec.ofNat 16 (v.toNat + n) = v + BitVec.ofNat 16 n := by
  rw [BitVec.ofNat_add, ofNat_toNat]

theorem goto_add (s : State) (n : Nat) : goto s (s.pc.toNat + n) = s.advance n :=
  congrArg s.jump (ofNat_toNat_add s.pc n)

theorem goto_toNat (s : State) (target : Word) : goto s target.toNat = s.jump target :=
  congrArg s.jump (ofNat_toNat target)

theorem write_add (s : State) (r : RegIndex) (v n : Nat) :
    write s r.val v (s.pc.toNat + n) = (s.writeReg r (BitVec.ofNat 16 v)).advance n := by
  have hset : s.regs.setIfInBounds r.val (BitVec.ofNat 16 v) = s.regs.set r.val (BitVec.ofNat 16 v) := by
    simp [Vector.setIfInBounds, Vector.set, Array.setIfInBounds]
  rw [write, hset]
  exact goto_add (s.writeReg r (BitVec.ofNat 16 v)) n

theorem write_toNat_add (s : State) (r : RegIndex) (v : Word) (n : Nat) :
    write s r.val v.toNat (s.pc.toNat + n) = (s.writeReg r v).advance n := by
  rw [write_add, ofNat_toNat]

theorem write_byte_add (s : State) (r : RegIndex) (c : Byte) (n : Nat) :
    write s r.val c.toNat (s.pc.toNat + n) = (s.writeReg r (c.setWidth 16)).advance n := by
  rw [write_add, BitVec.ofNat_toNat]

/-! ### The step of the pseudocode -/

/-- The end of a step begun in `s`: its new state, or `s` with the fault recorded (R164). -/
def settle (s : State) (y : Check State) : State :=
  match y with
  | .ok t => t
  | .error e => s.faultedWith e.1 e.2

theorem stepState_of_inside {s : State} (hp : s.pc.toNat < s.memSize) : stepState s = settle s (body s) := by
  rw [stepState, if_neg (Nat.not_le.mpr hp)]
  cases body s <;> rfl

theorem stepState_of_past_end {s : State} (hp : s.memSize ≤ s.pc.toNat) : stepState s = s.stop .programExhausted :=
  if_pos hp

/-- R63: an opcode word outside 0..20 is the no-op. -/
theorem body_of_ge {s : State} (h : 21 ≤ cell s s.pc.toNat) : body s = .ok (s.advance 1) := by
  simp only [body]
  split
  case h_22 => exact congrArg Except.ok (goto_add s 1)
  all_goals omega

end Sys2Proof.Reference

namespace Sys2Proof.Machine

/-! ### An instruction against its pseudocode -/

/-- The result `r` of an instruction begun in `s` is what the pseudocode `y` comes to. -/
abbrev Simulates (s : State) (r : Result) (y : Reference.Check State) : Prop := r = .next (Reference.settle s y)

section
variable {s : State} {w w1 w2 w3 : Word} {d a b : Operand}

theorem Simulates.of_eq {t t' : State} (h : t' = t) : Simulates s (.next t) (.ok t') :=
  congrArg Host.Outcome.next h.symm

theorem Simulates.dest {k : RegIndex → Except Raised State} {k' : Nat → Reference.Check State}
    (hk : ∀ r : RegIndex, Simulates s (s.finish (k r)) (k' r.val)) :
    Simulates s (s.finish (dst (decodeOperand w) >>= k)) (Reference.dst w.toNat >>= k') := by
  rcases Reference.dst_cases w with ⟨r, hd, hy⟩ | ⟨hd, hy⟩
  · rw [hd, hy]
    exact hk r
  · rw [hd, hy]
    rfl

theorem Simulates.value {k : Word → Except Raised State} {k' : Nat → Reference.Check State}
    (hk : ∀ v : Word, Simulates s (s.finish (k v)) (k' v.toNat)) :
    Simulates s (s.finish (s.val (decodeOperand w) >>= k)) (Reference.val s w.toNat >>= k') := by
  rcases Reference.val_cases s w with ⟨v, hv, hy⟩ | ⟨hinvalid, hy⟩
  · rw [State.val_of_valueOf hv, hy]
    exact hk v
  · rw [hinvalid, hy]
    rfl

theorem Simulates.pushWord {k : State → State} {v : Word} {n target : Nat} (hv : BitVec.ofNat 16 n = v)
    (hk : Reference.goto { s with stack := v :: s.stack } target = k { s with stack := v :: s.stack }) :
    Simulates s (s.finish (s.pushWord v >>= fun t => pure (k t))) (Reference.push s n target) := by
  subst hv
  by_cases hfull : s.params.stackDepth = some s.stack.length
  · rw [State.pushWord_of_full hfull, Reference.push, if_pos hfull]
    rfl
  · rw [State.pushWord_of_room hfull, Reference.push, if_neg hfull]
    exact .of_eq hk

theorem Simulates.memRead {k : Word → Except Raised State} {y : Reference.Check State} (addr : Word)
    (hk : Simulates s (s.finish (k (s.mem.read addr.toNat))) y) :
    Simulates s (s.finish (s.memRead addr >>= k))
      (if addr.toNat < s.memSize then y else .error (.memoryOutOfBounds, addr.toNat)) := by
  by_cases hm : addr.toNat < s.memSize
  · rw [State.memRead_of_lt hm, if_pos hm]
    exact hk
  · rw [State.memRead_of_ge (Nat.le_of_not_lt hm), if_neg hm]
    rfl

theorem Simulates.memWrite {k : State → Except Raised State} {y : Reference.Check State} (addr v : Word)
    (hk : Simulates s (s.finish (k { s with mem := s.mem.write addr.toNat v })) y) :
    Simulates s (s.finish (s.memWrite addr v >>= k))
      (if addr.toNat < s.memSize then y else .error (.memoryOutOfBounds, addr.toNat)) := by
  by_cases hm : addr.toNat < s.memSize
  · rw [State.memWrite_of_lt hm, if_pos hm]
    exact hk
  · rw [State.memWrite_of_ge (Nat.le_of_not_lt hm), if_neg hm]
    rfl

theorem operands_one (h : [a] <+: [w1, w2, w3].map decodeOperand) : a = decodeOperand w1 := by
  simpa using h

theorem operands_two (h : [a, b] <+: [w1, w2, w3].map decodeOperand) : a = decodeOperand w1 ∧ b = decodeOperand w2 := by
  simpa using h

theorem operands_three (h : [d, a, b] <+: [w1, w2, w3].map decodeOperand) :
    d = decodeOperand w1 ∧ a = decodeOperand w2 ∧ b = decodeOperand w3 := by
  simpa using h

/-- The three-word form, for a function on words that is one on their numbers. -/
theorem Simulates.unary {f : Word → Word} {g : Nat → Nat} (hops : [d, a] <+: [w1, w2, w3].map decodeOperand)
    (hfg : ∀ v, f v = BitVec.ofNat 16 (g v.toNat)) :
    Simulates s (s.unary f d a) (do
      let d ← Reference.dst w1.toNat
      let va ← Reference.val s w2.toNat
      pure (Reference.write s d (g va) (s.pc.toNat + 3))) := by
  obtain ⟨rfl, rfl⟩ := operands_two hops
  refine .dest fun r => .value fun v => .of_eq ?_
  rw [Reference.write_add, ← hfg]

/-- The four-word form. -/
theorem Simulates.binary {f : Word → Word → Word} {g : Nat → Nat → Nat}
    (hops : [d, a, b] <+: [w1, w2, w3].map decodeOperand)
    (hfg : ∀ v w, f v w = BitVec.ofNat 16 (g v.toNat w.toNat)) :
    Simulates s (s.binary f d a b) (do
      let d ← Reference.dst w1.toNat
      let va ← Reference.val s w2.toNat
      let vb ← Reference.val s w3.toNat
      pure (Reference.write s d (g va vb) (s.pc.toNat + 4))) := by
  obtain ⟨rfl, rfl, rfl⟩ := operands_three hops
  refine .dest fun r => .value fun v => .value fun w => .of_eq ?_
  rw [Reference.write_add, ← hfg]

/-- The form of a conditional jump. -/
theorem Simulates.branch {test : Word → Bool} {taken : Nat → Bool} (hops : [a, b] <+: [w1, w2, w3].map decodeOperand)
    (htest : ∀ c, test c = taken c.toNat) :
    Simulates s (s.branch test a b) (do
      let c ← Reference.val s w1.toNat
      let t ← Reference.val s w2.toNat
      pure (Reference.branch s (taken c) t)) := by
  obtain ⟨rfl, rfl⟩ := operands_two hops
  refine .value fun c => .value fun target => .of_eq ?_
  rw [htest, Reference.branch]
  cases taken c.toNat with
  | true => exact Reference.goto_toNat s target
  | false => exact Reference.goto_add s 3

/-- An instruction other than the no-op whose operands are the first of the words after `pc` is the branch of the pseudocode for its
opcode. -/
theorem exec_simulates_body {i : Instr} (hcell : Reference.cell s s.pc.toNat = i.opcode.toNat) (hdefined : ∀ op, i ≠ .noop op)
    (hops : i.operands <+: [s.fetchOperand (s.pc.toNat + 1), s.fetchOperand (s.pc.toNat + 2),
      s.fetchOperand (s.pc.toNat + 3)].map decodeOperand) : Simulates s (exec i s) (Reference.body s) := by
  simp only [Reference.body, Reference.fetchOperand_eq_toNat]
  rw [hcell]
  cases i with
  | halt => rfl
  | noop op => exact absurd rfl (hdefined op)
  | set d a => exact .unary (g := fun v => v) hops fun v => (Reference.ofNat_toNat v).symm
  | not d a => exact .unary hops notResult_eq
  | eq d a b => exact .binary hops eqResult_eq_ofNat
  | gt d a b => exact .binary hops gtResult_eq_ofNat
  | add d a b => exact .binary hops fun _ _ => rfl
  | mult d a b => exact .binary hops fun _ _ => rfl
  | and d a b => exact .binary hops andResult_eq
  | or d a b => exact .binary hops orResult_eq
  | jt a b => exact .branch hops nonZero_eq_toNat_bne
  | jf a b => exact .branch hops isZero_eq_toNat_beq
  | jmp a =>
    obtain rfl := operands_one hops
    exact .value fun target => .of_eq (Reference.goto_toNat s target)
  | push a =>
    obtain rfl := operands_one hops
    exact .value fun v => .pushWord (Reference.ofNat_toNat v) (Reference.goto_add _ 2)
  | call a =>
    obtain rfl := operands_one hops
    exact .value fun target => .pushWord (Reference.ofNat_toNat_add s.pc 2) (Reference.goto_toNat _ target)
  | out a =>
    obtain rfl := operands_one hops
    refine .value fun v => .of_eq ?_
    rw [← setWidth_eight_eq_ofNat_mod]
    exact Reference.goto_add (s.outEmit (v.setWidth 8)) 2
  | rmem d a =>
    obtain ⟨rfl, rfl⟩ := operands_two hops
    exact .dest fun r => .value fun addr => .memRead addr (.of_eq (Reference.write_toNat_add s r _ 3))
  | wmem a b =>
    obtain ⟨rfl, rfl⟩ := operands_two hops
    refine .value fun addr => .value fun v => .memWrite addr v (.of_eq ?_)
    rw [Reference.ofNat_toNat]
    exact Reference.goto_add { s with mem := s.mem.write addr.toNat v } 3
  | mod d a b =>
    obtain ⟨rfl, rfl, rfl⟩ := operands_three hops
    refine .dest fun r => .value fun v => .value fun w => ?_
    by_cases hw : w = 0
    · rw [hw]
      rfl
    · have hzero : w.toNat ≠ 0 := fun hzero => hw (BitVec.eq_of_toNat_eq hzero)
      rw [if_neg hw, if_neg hzero]
      exact .of_eq (Reference.write_add s r _ 4)
  | pop d =>
    obtain rfl := operands_one hops
    refine .dest fun r => ?_
    obtain ⟨_, _, stack, _⟩ := s
    cases stack with
    | nil => rfl
    | cons v rest => exact .of_eq (Reference.write_toNat_add _ r v 2)
  | ret =>
    obtain ⟨_, _, stack, _⟩ := s
    cases stack with
    | nil => rfl
    | cons target rest => exact .of_eq (Reference.goto_toNat _ target)
  | inp d =>
    obtain rfl := operands_one hops
    refine .dest fun r => ?_
    obtain ⟨_, _, _, _, _, _, input, inputTail, _⟩ := s
    cases input with
    | nil => cases inputTail <;> rfl
    | cons e rest =>
      cases e with
      | notYet => rfl
      | char c => exact .of_eq (Reference.write_byte_add _ r c 2)

end

/-! ### The fetched instruction against the pseudocode -/

theorem State.fetchInstr_ne_noop {s : State} (hmap : Reference.cell s s.pc.toNat < 21) (op : Word) : s.fetchInstr ≠ .noop op := by
  intro hi
  have hop : s.mem.read s.pc.toNat = op := (decodeWords_opcode _ _ _ _).symm.trans (congrArg Instr.opcode hi)
  have hwf : (Instr.noop op).wf = true := hi ▸ decodeWords_wf _ _ _ _
  exact absurd (of_decide_eq_true hwf) (Nat.not_le.mpr (hop ▸ hmap))

/-- R52, R60: the effect of the fetched instruction. -/
theorem exec_fetchInstr_simulates_body (s : State) : Simulates s (exec s.fetchInstr s) (Reference.body s) := by
  rcases Nat.lt_or_ge (Reference.cell s s.pc.toNat) 21 with hmap | hge
  · refine exec_simulates_body ?_ (State.fetchInstr_ne_noop hmap) (decodeWords_operands _ _ _ _)
    exact congrArg BitVec.toNat (decodeWords_opcode _ _ _ _).symm
  · rw [Reference.body_of_ge hge, State.fetchInstr, decodeWords_of_ge hge]
    rfl

end Sys2Proof.Machine

namespace Sys2Proof.Claims

open Sys2Proof.Machine

/-- Settles O14: both steps begin with the same bounds check, and inside memory the fetched instruction is the branch of the pseudocode
for its opcode word. -/
theorem stepIsThePseudocode : Obligations.StepIsThePseudocode := by
  intro s hr
  rcases Nat.lt_or_ge s.pc.toNat s.memSize with hp | hp
  · rw [step_of_inside hr hp, Reference.stepState_of_inside hp]
    exact exec_fetchInstr_simulates_body s
  · rw [step_of_past_end hr hp, Reference.stepState_of_past_end hp]

end Sys2Proof.Claims

/-! Proof that `run_state` tells the truth about the end of the run (60_exceptions.md rules R160, R163), along the checks of the
pseudocode that the step comes to. -/

namespace Sys2Proof.Reference

open Sys2Proof.Machine

theorem val_of_le (s : State) {n : Nat} (h : n ≤ 32775) : ∃ v, val s n = .ok v := by
  by_cases hlit : n ≤ 32767
  · exact ⟨n, if_pos hlit⟩
  · exact ⟨_, by rw [val, if_neg hlit, if_pos h]⟩

theorem val_of_gt (s : State) {n : Nat} (h : 32775 < n) : val s n = .error (.invalidOperand, n) := by
  rw [val, if_neg (by omega), if_neg (by omega)]

end Sys2Proof.Reference

namespace Sys2Proof.Machine

/-! ### The words of the step and their roles -/

/-- R62: no instruction has its first operand word as destination and as value. -/
theorem one_notMem_valuePositions : ∀ op ∈ destOpcodes, 1 ∉ valuePositions op := by decide

theorem State.wordAt_zero_eq_cell {s : State} (hp : s.pc.toNat < s.memSize) : s.wordAt 0 = Reference.cell s s.pc.toNat :=
  State.wordAt_zero hp

/-- The operand words before word `j` pass their checks; only words 1 and 2 stand before another. -/
def State.PassesBelow (s : State) (j : Nat) : Prop := ∀ i ∈ [1, 2], i < j → s.wordPasses i

theorem State.passesBelow_one (s : State) : s.PassesBelow 1 :=
  fun i hi hlt => absurd hlt ((by decide : ∀ i ∈ [1, 2], ¬i < 1) i hi)

theorem State.PassesBelow.succ {s : State} {j : Nat} (h : s.PassesBelow j) (hj : s.wordPasses j) : s.PassesBelow (j + 1) := by
  intro i hi hlt
  rcases Nat.lt_succ_iff_lt_or_eq.mp hlt with hlt | rfl
  · exact h i hi hlt
  · exact hj

/-! ### The checks of the pseudocode

The roles of the words of a known instruction are found by evaluation: `rfl` proves `hdest` and `hvalue`. -/

/-- The state that the pseudocode `y` leaves, begun in `s`, backs its own `run_state`. -/
abbrev Explained (s : State) (y : Reference.Check State) : Prop := (Reference.settle s y).EndExplained

section
variable {s : State} {i : Instr} {j : Nat} {k : Nat → Reference.Check State}

theorem Explained.of_running {t : State} (ht : t.runState = .running) : Explained s (.ok t) := by
  simp only [Explained, Reference.settle, State.EndExplained, ht]

theorem Explained.fault {cause : FaultCause} {info : Nat} (hp : s.pc.toNat < s.memSize) (h : s.FaultExplained cause info) :
    Explained s (.error (cause, info)) :=
  ⟨rfl, hp, h⟩

/-- R56: a destination word, always the first operand word. -/
theorem Explained.dest (hp : s.pc.toNat < s.memSize) (hop : s.wordAt 0 = i.opcode.toNat)
    (hdest : decide (i.opcode.toNat ∈ destOpcodes) = true) (hk : ∀ d, s.PassesBelow 2 → Explained s (k d)) :
    Explained s (Reference.dst (s.wordAt 1) >>= k) := by
  have hmem : s.wordAt 0 ∈ destOpcodes := hop ▸ of_decide_eq_true hdest
  by_cases h : 32768 ≤ s.wordAt 1 ∧ s.wordAt 1 ≤ 32775
  · rw [Reference.dst, if_pos h]
    exact hk _ (s.passesBelow_one.succ (by rwa [State.wordPasses, if_pos ⟨rfl, hmem⟩]))
  · rw [Reference.dst, if_neg h]
    exact .fault hp ⟨hmem, rfl, h⟩

/-- R55, R57: a value word; when it is invalid it is the first bad one. -/
theorem Explained.value (hp : s.pc.toNat < s.memSize) (hop : s.wordAt 0 = i.opcode.toNat)
    (hvalue : decide (j ∈ valuePositions i.opcode.toNat) = true) (hbelow : s.PassesBelow j)
    (hk : ∀ v, Reference.val s (s.wordAt j) = .ok v → s.PassesBelow (j + 1) → Explained s (k v)) :
    Explained s (Reference.val s (s.wordAt j) >>= k) := by
  have hmem : j ∈ valuePositions (s.wordAt 0) := hop ▸ of_decide_eq_true hvalue
  rcases Nat.lt_or_ge 32775 (s.wordAt j) with hbad | hle
  · rw [Reference.val_of_gt s hbad]
    exact .fault hp ⟨j, hmem, rfl, hbad, hbelow⟩
  · have hrole : ¬(j = 1 ∧ s.wordAt 0 ∈ destOpcodes) := by
      rintro ⟨rfl, hdest⟩
      exact one_notMem_valuePositions _ hdest hmem
    obtain ⟨v, hv⟩ := Reference.val_of_le s hle
    rw [hv]
    exact hk v hv (hbelow.succ (by rwa [State.wordPasses, if_neg hrole]))

theorem Explained.push (hr : s.runState = .running) (hp : s.pc.toNat < s.memSize) (hop : s.wordAt 0 = 2 ∨ s.wordAt 0 = 17)
    (v a : Nat) : Explained s (Reference.push s v a) := by
  by_cases hfull : s.params.stackDepth = some s.stack.length
  · rw [Reference.push, if_pos hfull]
    exact .fault hp ⟨hop, hfull, rfl⟩
  · rw [Reference.push, if_neg hfull]
    exact .of_running hr

/-- The access of `rmem` and `wmem` to the cell `addr`. -/
theorem Explained.access {y : Reference.Check State} {addr : Nat} (hp : s.pc.toNat < s.memSize)
    (hop : (s.wordAt 0 = 15 ∧ Reference.val s (s.wordAt 2) = .ok addr) ∨
      (s.wordAt 0 = 16 ∧ Reference.val s (s.wordAt 1) = .ok addr))
    (hy : Explained s y) : Explained s (if addr < s.memSize then y else .error (.memoryOutOfBounds, addr)) := by
  by_cases hm : addr < s.memSize
  · rwa [if_pos hm]
  · rw [if_neg hm]
    exact .fault hp ⟨Nat.le_of_not_lt hm, hop⟩

/-- R163: along the checks of an instruction other than the no-op, in their order, each fault and each stop is backed. -/
theorem body_explained (hr : s.runState = .running) (hp : s.pc.toNat < s.memSize) (hop : s.wordAt 0 = i.opcode.toNat)
    (hdefined : ∀ op, i ≠ .noop op) : Explained s (Reference.body s) := by
  have hfirst := s.passesBelow_one
  have hword (k : Nat) : Reference.fetchOperand s (s.pc.toNat + k) = s.wordAt k := Reference.fetchOperand_eq_toNat s _
  simp only [Reference.body, hword, ← State.wordAt_zero_eq_cell hp]
  rw [hop]
  cases i with
  | halt => exact ⟨hp, .inl hop⟩
  | noop op => exact absurd rfl (hdefined op)
  | set | not => exact .dest hp hop rfl fun _ hsecond => .value hp hop rfl hsecond fun _ _ _ => .of_running hr
  | eq | gt | add | mult | and | or =>
    exact .dest hp hop rfl fun _ hsecond => .value hp hop rfl hsecond fun _ _ hthird => .value hp hop rfl hthird fun _ _ _ =>
      .of_running hr
  | jmp | out => exact .value hp hop rfl hfirst fun _ _ _ => .of_running hr
  | jt | jf => exact .value hp hop rfl hfirst fun _ _ hsecond => .value hp hop rfl hsecond fun _ _ _ => .of_running hr
  | push => exact .value hp hop rfl hfirst fun v _ _ => .push hr hp (.inl hop) v _
  | call => exact .value hp hop rfl hfirst fun target _ _ => .push hr hp (.inr hop) _ target
  | rmem =>
    exact .dest hp hop rfl fun _ hsecond => .value hp hop rfl hsecond fun addr haddr _ =>
      .access hp (.inl ⟨hop, haddr⟩) (.of_running hr)
  | wmem =>
    exact .value hp hop rfl hfirst fun addr haddr hsecond => .value hp hop rfl hsecond fun _ _ _ =>
      .access hp (.inr ⟨hop, haddr⟩) (.of_running hr)
  | mod =>
    refine .dest hp hop rfl fun _ hsecond => .value hp hop rfl hsecond fun _ _ hthird => .value hp hop rfl hthird fun w hw _ => ?_
    by_cases hzero : w = 0
    · rw [if_pos hzero]
      exact .fault hp ⟨hop, hzero ▸ hw, rfl⟩
    · rw [if_neg hzero]
      exact .of_running hr
  | pop =>
    refine .dest hp hop rfl fun _ _ => ?_
    cases hs : s.stack with
    | nil => exact .fault hp ⟨hop, hs, rfl⟩
    | cons v rest => exact .of_running hr
  | ret =>
    cases hs : s.stack with
    | nil => exact ⟨hp, .inr ⟨hop, rfl⟩⟩
    | cons target rest => exact .of_running hr
  | inp =>
    refine .dest hp hop rfl fun _ hsecond => ?_
    split
    · exact .of_running hr
    · exact .of_running hr
    · exact .of_running hr
    next hi ht => exact ⟨hp, hop, hsecond 1 (by decide) (by decide), hi, ht⟩

end

end Sys2Proof.Machine

namespace Sys2Proof.Claims

open Sys2Proof.Machine

/-- Settles O51: the step is the pseudocode's, and each of its checks and ends writes what it has found. -/
theorem endOfRunIsExplained : Obligations.EndOfRunIsExplained := by
  intro s t h
  obtain ⟨hr, ⟨hend, rfl⟩ | ⟨hp, hexec⟩⟩ := step_next_cases h
  · exact hend
  · obtain rfl : Reference.settle s (Reference.body s) = t := by
      simpa using (exec_fetchInstr_simulates_body s).symm.trans hexec
    rcases Nat.lt_or_ge (Reference.cell s s.pc.toNat) 21 with hmap | hge
    · exact body_explained hr hp (State.fetchInstr_opcode hp).symm (State.fetchInstr_ne_noop hmap)
    · rw [Reference.body_of_ge hge]
      exact Explained.of_running hr

end Sys2Proof.Claims
